-- ==== Sys2Proof/Word.lean ====
section
/-! DEFINITION. The word types of the machine (00_scope.md R7, R8, R10) and the two width changes its rules use. -/

namespace Sys2Proof

/-- A register, a memory cell, an instruction byte: XLEN = 8 bits, unsigned (R7). -/
abbrev Byte := BitVec 8

/-- An address before the address decoder, and the program counter: 9 bits (R8, R29). -/
abbrev Addr := BitVec 9

/-- A register number that selects a register: 0 to 7 (R7, R24). -/
abbrev RegIx := Fin 8

/-- `zext_9(v)` (R10). -/
def zext9 (b : Byte) : Addr := b.setWidth 9

/-- `trunc_8(v) = v mod 256` (R10). -/
def trunc8 (n : Nat) : Byte := BitVec.ofNat 8 n

end Sys2Proof
end

