-- ==== Sys2Proof/Config.lean ====
section
/-! DEFINITION. What an implementation fixes: the three named parameters of 00_scope.md R9 and the fixed sizes of R7.
The spec leaves no result of an instruction open. The two outputs of the ALU that it leaves open are free values, and no step uses
them. -/

namespace Sys2Proof

/-- The named parameters the model takes as arguments (R9). They are plain data, so that a claim can quantify over them. -/
structure Config where
  /-- ALU_DECODE_EXT: whether the five extension bytes decode (R12). -/
  aluDecodeExt : Bool
  /-- FL_RESET: what FL holds after reset (R27). -/
  flReset : Byte
  /-- GPR_RESET: what R0 to R6 hold after reset (R21). -/
  gprReset : Vector Byte 7
  deriving DecidableEq, Repr

/-- The spec's default parameters (R9): no extension, FL and R0 to R6 reset to zero.
UNVERIFIED, unsafe: the defaults are the spec's decisions D11, D12 and D17; log entries 1, 2 and 3. -/
def Config.default : Config where
  aluDecodeExt := false
  flReset := 0x00#8
  gprReset := #v[0x00#8, 0x00#8, 0x00#8, 0x00#8, 0x00#8, 0x00#8, 0x00#8]

/-- SP_INDEX (R7). -/
def spIndex : RegIx := 7

/-- SP_RESET (R7, R23). -/
def spReset : Byte := 0xF4#8

/-- STACK_TOP (R7, R153): the constant bound of POP, whatever a program writes to R7. -/
def stackTop : Byte := 0xF4#8

/-- PC_RESET (R7, R231). -/
def pcReset : Addr := 0#9

/-- MEM_SIZE (R7, R50). -/
abbrev memSize : Nat := 256

/-- MAX_PROGRAM (R7, R233). -/
abbrev maxProgram : Nat := 256

/-- A free value: `res` of the ALU for an op code and operands for which R122 to R124 state none (CMP, and code 7). It is a function
of the inputs because the ALU is combinational (R122). DESIGN CHOICE, safe: log entry 21. -/
opaque Config.freeAluRes (code : BitVec 3) (a b : Byte) : Byte

/-- A free value: `flg` of the ALU for an op code other than CMP's, for which R122 states none. It is a function of the inputs
because the ALU is combinational (R122). DESIGN CHOICE, safe: log entry 21. -/
opaque Config.freeAluFlg (code : BitVec 3) (a b : Byte) : BitVec 3

end Sys2Proof
end

