-- ==== Sys2Proof/Machine/State.lean ====
section
/-! DEFINITION. The state of the machine (10_state.md), why a step can stop, and the state after reset. -/

namespace Sys2Proof.Machine

/-- The run state (R32). The status code 3 (R8) never occurs and has no constructor. -/
inductive RunState where
  | running
  | halted
  | faulted
  deriving DecidableEq, Repr

/-- The fault causes of 60_exceptions.md R200, by name. -/
inductive FaultCause where
  /-- Code 0: no fault has been raised. -/
  | none
  /-- Code 1: a fetched byte is no opcode (R201). -/
  | invalidOpcode
  /-- Code 2: a fetch at an address of 256 or above (R202). -/
  | outOfBounds
  /-- Code 3: a register operand of 8 or above (R203). -/
  | invalidRegister
  /-- Code 4: PUSH with SP = 0 (R204). -/
  | stackOverflow
  /-- Code 5: POP with SP at or above 0xF4 (R205). -/
  | stackUnderflow
  /-- Code 6: reserved, raised by no reachable state (R206). -/
  | unsupportedOperation
  /-- Code 7: reserved (R200). -/
  | reserved
  deriving DecidableEq, Repr

/-- The fault record (R33). -/
structure FaultRecord where
  cause : FaultCause
  fpc : Addr
  faddr : Addr
  fval : Byte
  deriving DecidableEq, Repr

/-- The fault record after reset (R33, R35): all zero. -/
def FaultRecord.clear : FaultRecord := ⟨.none, 0#9, 0#9, 0#8⟩

/-- Why no step is enabled (40_execution_cycle.md R90). A fault of the MACHINE is none of these: it is a next state, with the run
state Faulted and the fault record written (R208). -/
inductive Fault where
  /-- Raised by `step` when the run state is Halted: no step is enabled (R90, R100). Safe: the spec gives no step there. -/
  | halted
  /-- Raised by `step` when the run state is Faulted: no step is enabled (R90, R209). Safe: the spec gives no step there. -/
  | faulted
  /-- Raised by `step` while the reset input is asserted: no step is enabled (R90). Safe: the spec gives no step there. -/
  | heldInReset
  deriving DecidableEq, Repr

/-- What the model has no meaning for, or what the block refuses. -/
inductive Refusal where
  /-- Raised by an arm of `exec` whose instruction has no meaning yet; no arm does now. Safe. -/
  | notModelled (mnemonic : String)
  /-- Raised by `launch` for a program image of more than 256 bytes: the load interface refuses it and no run starts (R233). Safe. -/
  | imageTooLong (length : Nat)
  deriving DecidableEq, Repr

/-- Memory (R50) as the cells that do not hold 0x00, in rising order of address; a cell not listed holds 0x00 (R51). -/
abbrev Memory := List Host.Cell

/-- The architectural state (10_state.md, 20_memory.md, 43_io.md), and the inputs the rules read. -/
@[ext]
structure State where
  /-- x[0] to x[7] (R20); x[7] is the stack pointer (R23). -/
  regs : Vector Byte 8
  /-- FL (R27). -/
  fl : Byte
  /-- The program counter (R29). -/
  pc : Addr
  /-- `state` (R32). -/
  run : RunState
  /-- The fault record (R33). -/
  fault : FaultRecord
  /-- M (R50). -/
  mem : Memory
  /-- OUT (R170), the oldest value first. -/
  out : List Byte
  /-- The level of the reset input: asserted or not (R90, R230). Log entry 4. -/
  rst : Bool
  /-- The named parameters (R9). No step writes them. Log entries 1 to 3. -/
  params : Config
  deriving DecidableEq, Repr

/-- The machine right after reset with an empty program image, for any parameters (R35, R230). -/
def State.resetWith (p : Config) : State where
  regs := p.gprReset.push spReset
  fl := p.flReset
  pc := pcReset
  run := .running
  fault := FaultRecord.clear
  mem := []
  out := []
  rst := false
  params := p

/-- The machine right after reset, under the spec's default parameters (R9, R35). -/
def State.reset : State := State.resetWith Config.default

end Sys2Proof.Machine
end

