-- ==== Sys2Proof/Machine/Ops.lean ====
section
/-! DEFINITION. The named operations over memory and registers, fault entry (60_exceptions.md R208), and the codes of the status
outputs. Every meaning is written over these. -/

namespace Sys2Proof.Machine

/-- The result type of a step and of a meaning. -/
abbrev Result := Host.Outcome State Fault Refusal

/-! ## Memory (20_memory.md) -/

/-- What a cell that is not listed holds: memory is zero-initialized (R51). -/
def Memory.blank : Byte := 0x00#8

/-- The byte of the cell at address `a` (R53). -/
def Memory.read (a : Nat) : Memory → Byte
  | [] => Memory.blank
  | (b, v) :: m => if a = b then v else Memory.read a m

/-- The list entry for a cell holding `v`: none where `v` is what an unlisted cell holds. -/
def Memory.cell (a : Nat) (v : Byte) (m : Memory) : Memory :=
  if v = Memory.blank then m else (a, v) :: m

/-- Set the cell at address `a` (R54), keeping the rising order and listing no blank cell. -/
def Memory.write (a : Nat) (v : Byte) : Memory → Memory
  | [] => Memory.cell a v []
  | (b, w) :: m =>
    if a < b then Memory.cell a v ((b, w) :: m)
    else if a = b then Memory.cell a v m
    else (b, w) :: Memory.write a v m

/-- All addresses listed are at or above `lo` and below 256, strictly rising, and no listed cell is blank. -/
def Memory.wfFrom : Nat → Memory → Bool
  | _, [] => true
  | lo, (a, v) :: m => decide (lo ≤ a) && decide (a < memSize) && decide (v ≠ Memory.blank) && Memory.wfFrom (a + 1) m

/-- The canonical form of memory. -/
def Memory.wf (m : Memory) : Bool := Memory.wfFrom 0 m

/-- The address decoder (R52): a 9-bit address selects a cell below 256 and no cell otherwise. -/
def cellOf (a : Addr) : Option Byte :=
  if a.toNat < memSize then some (a.setWidth 8) else none

/-- The byte in a cell. -/
def State.byteAt (s : State) (c : Byte) : Byte := Memory.read c.toNat s.mem

/-- The state with a cell set; the rest of the state is untouched (R54). -/
def State.storeByte (s : State) (c v : Byte) : State := { s with mem := Memory.write c.toNat v s.mem }

/-- `MemRead(a, 1)` (R53), none where the address decoder faults. -/
def State.readAddr (s : State) (a : Addr) : Option Byte := (cellOf a).map s.byteAt

/-! ## Registers (10_state.md) -/

/-- `x[i]` (R11, R20). -/
def State.reg (s : State) (r : RegIx) : Byte := s.regs[r]

/-- `x[i] <- v` (R11, R25). -/
def State.setReg (s : State) (r : RegIx) (v : Byte) : State := { s with regs := s.regs.set r v }

/-- SP is another name for x[7] (R11, R23). -/
def State.sp (s : State) : Byte := s.reg spIndex

/-- `SP <- v`. -/
def State.setSp (s : State) (v : Byte) : State := s.setReg spIndex v

/-- `FL <- v` (R11, R27). -/
def State.setFl (s : State) (v : Byte) : State := { s with fl := v }

/-- `pc <- v` (R11, R29). -/
def State.setPc (s : State) (a : Addr) : State := { s with pc := a }

/-- `pc <- pc + L`, in 9 bits and without a wrap at 256 (R31, R97).
UNVERIFIED, unsafe where a chip wraps: the spec's decision D3; log entry 8. -/
def State.advance (s : State) (L : Nat) : State := s.setPc (s.pc + BitVec.ofNat 9 L)

/-- `Emit(v)` (R11, R170). -/
def State.emit (s : State) (v : Byte) : State := { s with out := s.out ++ [v] }

/-- `state <- Halted` (R11, R191). -/
def State.halt (s : State) : State := { s with run := .halted }

/-! ## Taking a fault (60_exceptions.md) -/

/-- Fault entry (R96, R208): the run state becomes Faulted and the fault record is written, with the pc of the faulting instruction;
nothing else changes. There is no return beside it: only reset leaves Faulted (R209; `assertReset` in HostPort.lean).
UNVERIFIED, unsafe where a chip leaves a partial write: the spec's decisions D6 and D8; log entry 6. -/
def State.takeFault (s : State) (cause : FaultCause) (faddr : Addr) (fval : Byte) : State :=
  { s with run := .faulted, fault := ⟨cause, s.pc, faddr, fval⟩ }

/-- `raise E` (R11): the instruction ends in the next state that fault entry gives. -/
def raise (cause : FaultCause) (faddr : Addr) (fval : Byte) (s : State) : Result :=
  .next (s.takeFault cause faddr fval)

/-- Go on with the cell an address selects, or raise OutOfBounds at that address (R52). -/
def withCell (a : Addr) (s : State) (k : Byte → Result) : Result :=
  match cellOf a with
  | some c => k c
  | none => raise .outOfBounds a 0#8 s

/-! ## Codes of the status outputs -/

/-- The run state as the status output shows it (R8, R32). -/
def RunState.code : RunState → BitVec 2
  | .running => 0#2
  | .halted => 1#2
  | .faulted => 2#2

/-- The fault cause as the status output shows it (R200). -/
def FaultCause.code : FaultCause → BitVec 3
  | .none => 0#3
  | .invalidOpcode => 1#3
  | .outOfBounds => 2#3
  | .invalidRegister => 3#3
  | .stackOverflow => 4#3
  | .stackUnderflow => 5#3
  | .unsupportedOperation => 6#3
  | .reserved => 7#3

end Sys2Proof.Machine
end

