-- ==== Sys2Proof/Machine/Flags.lean ====
section
/-! DEFINITION. The flags of FL (10_state.md R27) and the one computation that writes them (41_alu.md R121). -/

namespace Sys2Proof.Machine

/-- FL with E set alone: bit 0 (R27). -/
def flagE : BitVec 3 := 0b001#3

/-- FL with G set alone: bit 1 (R27). -/
def flagG : BitVec 3 := 0b010#3

/-- FL with L set alone: bit 2 (R27). -/
def flagL : BitVec 3 := 0b100#3

/-- `flg[2:0]` of the comparison, unsigned (R121, R122). -/
def cmpFlg (a b : Byte) : BitVec 3 :=
  if a.toNat = b.toNat then flagE else if b.toNat < a.toNat then flagG else flagL

/-- What CMP writes to FL: `zext_8(flg)` (R122), so bits 7:3 are 0 (R121). -/
def cmpFlags (a b : Byte) : Byte := (cmpFlg a b).setWidth 8

/-- FL bit 0, E: the only bit an instruction reads (R28). -/
def State.flagEqual (s : State) : Bool := s.fl.getLsbD 0

/-- FL bit 1, G (R27). -/
def State.flagGreater (s : State) : Bool := s.fl.getLsbD 1

/-- FL bit 2, L (R27). -/
def State.flagLess (s : State) : Bool := s.fl.getLsbD 2

end Sys2Proof.Machine
end

