-- ==== Sys2Proof/Machine/Operands.lean ====
section
/-! DEFINITION. The operand forms (42_stack_data.md R156): register-direct with its index check, immediate, SP-indirect with
pre-decrement (PUSH) and with post-increment (POP), and the branch target (30_encoding.md R74). -/

namespace Sys2Proof.Machine

/-- The register an operand byte selects; the whole byte is the index (R24, R72). -/
def regIndex (b : Byte) : Option RegIx :=
  if h : b.toNat < 8 then some ⟨b.toNat, h⟩ else none

/-- Go on with the register that operand byte k selects, or raise InvalidRegister, recording the byte and its address pc + k
(R24, R94, R203). -/
def withReg (k : Nat) (b : Byte) (s : State) (f : RegIx → Result) : Result :=
  match regIndex b with
  | some r => f r
  | none => raise .invalidRegister (s.pc + BitVec.ofNat 9 k) b s

/-- Both register operands of format RR, checked in ascending order (R94, R207). -/
def withRegs (ra rb : Byte) (s : State) (f : RegIx → RegIx → Result) : Result :=
  withReg 1 ra s fun a => withReg 2 rb s fun b => f a b

/-- The literal of format RI: the operand byte unchanged (R73). -/
def literal (imm : Byte) : Byte := imm

/-- The branch target held by a register: `zext_9(x[ra])`, an absolute address (R74). -/
def State.target (s : State) (r : RegIx) : Addr := zext9 (s.reg r)

/-- PUSH would take SP below 0 (R150, R204). -/
def State.stackFull (s : State) : Bool := s.sp == 0#8

/-- POP would take SP above the initial top (R152, R153, R205).
UNVERIFIED, safe: the bound is the spec's decision D14; log entry 10. -/
def State.stackEmpty (s : State) : Bool := decide (stackTop.toNat ≤ s.sp.toNat)

/-- The address PUSH stores to: the decremented SP (R150). -/
def State.pushAddr (s : State) : Byte := trunc8 (s.sp.toNat + 255)

/-- The address POP loads from: SP before the increment (R152). -/
def State.popAddr (s : State) : Byte := s.sp

/-- SP after POP's increment (R152). -/
def State.bumpSp (s : State) : State := s.setSp (trunc8 (s.sp.toNat + 1))

end Sys2Proof.Machine
end

