-- ==== Sys2Proof/Machine/Alu.lean ====
section
/-! DEFINITION. The byte ALU (41_alu.md section 2) and the shared shape of its instructions. -/

namespace Sys2Proof.Machine

/-- The ALU operations, in the order of their codes (R123). -/
inductive AluOp where
  | add | sub | and | mul | inc | dec | cmp
  /-- Code 7, which the decoder produces for no opcode (R126). -/
  | none
  deriving DecidableEq, Repr

/-- The op code (R123). -/
def AluOp.code : AluOp → BitVec 3
  | .add => 0#3
  | .sub => 1#3
  | .and => 2#3
  | .mul => 3#3
  | .inc => 4#3
  | .dec => 5#3
  | .cmp => 6#3
  | .none => 7#3

/-- `res[7:0]` (R122, R124): the exact result, then mod 256. The spec states no result for CMP and for code 7: there `res` is a free
value, which no step uses (log entry 21). -/
def AluOp.res (op : AluOp) (a b : Byte) : Byte :=
  match op with
  | .add => trunc8 (a.toNat + b.toNat)
  | .sub => trunc8 (a.toNat + 256 - b.toNat)
  | .and => a &&& b
  | .mul => trunc8 (a.toNat * b.toNat)
  | .inc => trunc8 (a.toNat + 1)
  | .dec => trunc8 (a.toNat + 255)
  | .cmp | .none => Config.freeAluRes op.code a b

/-- `flg[2:0]` (R122): only CMP's is ever written to FL. The spec states none for the other codes: there `flg` is a free value, which
no step uses (log entry 21). -/
def AluOp.flg (op : AluOp) (a b : Byte) : BitVec 3 :=
  match op with
  | .cmp => cmpFlg a b
  | .add | .sub | .and | .mul | .inc | .dec | .none => Config.freeAluFlg op.code a b

/-- Write the ALU's result on x[a] and x[b] to x[a], both read first (R122, R127). -/
def State.aluInto (s : State) (op : AluOp) (a b : RegIx) : State := s.setReg a (op.res (s.reg a) (s.reg b))

/-- An ALU instruction of format RR that writes its result to x[ra] (R120, R130 to R132). -/
def aluTwo (op : AluOp) (ra rb : Byte) (s : State) : Result :=
  withRegs ra rb s fun a b => .next ((s.aluInto op a b).advance 3)

/-- An ALU instruction of format RX: `opB` is not used, and pc moves by 2 (R133, R134). -/
def aluOne (op : AluOp) (ra : Byte) (s : State) : Result :=
  withReg 1 ra s fun a => .next ((s.aluInto op a a).advance 2)

end Sys2Proof.Machine
end

