-- ==== Sys2Proof/Machine/Arithmetic.lean ====
section
/-! DEFINITION. The ALU instructions (41_alu.md). -/

namespace Sys2Proof.Machine

/-- MUL Ra, Rb (R120). -/
def execMul (ra rb : Byte) (s : State) : Result := aluTwo .mul ra rb s

/-- CMP Ra, Rb (R121): the whole of FL is written, and no register. -/
def execCmp (ra rb : Byte) (s : State) : Result :=
  withRegs ra rb s fun a b => .next ((s.setFl (cmpFlags (s.reg a) (s.reg b))).advance 3)

/-- ADD Ra, Rb (R130). -/
def execAdd (ra rb : Byte) (s : State) : Result := aluTwo .add ra rb s

/-- SUB Ra, Rb (R131). -/
def execSub (ra rb : Byte) (s : State) : Result := aluTwo .sub ra rb s

/-- AND Ra, Rb (R132). -/
def execAnd (ra rb : Byte) (s : State) : Result := aluTwo .and ra rb s

/-- INC Ra (R133). -/
def execInc (ra : Byte) (s : State) : Result := aluOne .inc ra s

/-- DEC Ra (R134). -/
def execDec (ra : Byte) (s : State) : Result := aluOne .dec ra s

end Sys2Proof.Machine
end

