-- ==== Sys2Proof/Machine/Jump.lean ====
section
/-! DEFINITION. Jumps and branches (44_control_flow.md). -/

namespace Sys2Proof.Machine

/-- Load pc from a register if the branch is taken, else move past the instruction (R97). The operand is checked either way.
UNVERIFIED, safe: the check of a branch not taken is the spec's decision D13; log entry 12. -/
def branchIf (taken : Bool) (ra : Byte) (s : State) : Result :=
  withReg 1 ra s fun r => .next (if taken then s.setPc (s.target r) else s.advance 2)

/-- JMP Ra (R180). -/
def execJmp (ra : Byte) (s : State) : Result := branchIf true ra s

/-- JEQ Ra (R181): taken when FL[0] = 1. -/
def execJeq (ra : Byte) (s : State) : Result := branchIf s.flagEqual ra s

/-- JNE Ra (R182): taken when FL[0] = 0. -/
def execJne (ra : Byte) (s : State) : Result := branchIf (!s.flagEqual) ra s

end Sys2Proof.Machine
end

