-- ==== Sys2Proof/Machine/Output.lean ====
section
/-! DEFINITION. The output port's instruction (43_io.md). -/

namespace Sys2Proof.Machine

/-- PRN Ra (R172). -/
def execPrn (ra : Byte) (s : State) : Result :=
  withReg 1 ra s fun r => .next ((s.emit (s.reg r)).advance 2)

end Sys2Proof.Machine
end

