-- ==== Sys2Proof/Machine/Stack.lean ====
section
/-! DEFINITION. The stack and data-move instructions (42_stack_data.md). -/

namespace Sys2Proof.Machine

/-- PUSH Ra (R150). The register is read after SP has been decremented, so PUSH R7 stores the decremented SP.
UNVERIFIED, unsafe for R7: the order is the spec's decision D16; log entry 9. -/
def execPush (ra : Byte) (s : State) : Result :=
  withReg 1 ra s fun r =>
    if s.stackFull then raise .stackOverflow (zext9 s.sp) 0#8 s
    else withCell (zext9 s.pushAddr) s fun c =>
      .next (((s.setSp s.pushAddr).storeByte c ((s.setSp s.pushAddr).reg r)).advance 2)

/-- POP Ra (R152). SP is incremented after the load, so POP R7 leaves SP = M[SP] + 1.
UNVERIFIED, unsafe for R7: the order is the spec's decision D16; log entry 9. -/
def execPop (ra : Byte) (s : State) : Result :=
  withReg 1 ra s fun r =>
    if s.stackEmpty then raise .stackUnderflow (zext9 s.sp) 0#8 s
    else withCell (zext9 s.popAddr) s fun c => .next ((s.setReg r (s.byteAt c)).bumpSp.advance 2)

/-- LDI Ra, imm (R155). -/
def execLdi (ra imm : Byte) (s : State) : Result :=
  withReg 1 ra s fun r => .next ((s.setReg r (literal imm)).advance 3)

end Sys2Proof.Machine
end

