-- ==== Sys2Proof/Machine/System.lean ====
section
/-! DEFINITION. NOP and HALT (45_system.md). -/

namespace Sys2Proof.Machine

/-- NOP (R190). -/
def execNop (s : State) : Result := .next (s.advance 1)

/-- HALT (R191): pc keeps the address of the HALT byte.
UNVERIFIED, unsafe for claims that name the final pc: the spec's decision D10; log entry 11. -/
def execHalt (s : State) : Result := .next s.halt

end Sys2Proof.Machine
end

