-- ==== Sys2Proof/Syntax.lean ====
section
/-! DEFINITION. The instructions: one constructor per row of spec/opcode_table.json, in the order of 30_encoding.md R76 and R77.
A register operand is the whole operand byte (R24, R72); whether it selects a register is checked by the meaning (R94). -/

namespace Sys2Proof

inductive Instr where
  /-- NOP, byte 0 (R190). -/
  | nop
  /-- HALT, byte 1 (R191). -/
  | halt
  /-- PUSH Ra, byte 69 (R150). -/
  | push (ra : Byte)
  /-- POP Ra, byte 70 (R152). -/
  | pop (ra : Byte)
  /-- PRN Ra, byte 71 (R172). -/
  | prn (ra : Byte)
  /-- LDI Ra, imm, byte 130 (R155). -/
  | ldi (ra imm : Byte)
  /-- JMP Ra, byte 84 (R180). -/
  | jmp (ra : Byte)
  /-- JEQ Ra, byte 85 (R181). -/
  | jeq (ra : Byte)
  /-- JNE Ra, byte 86 (R182). -/
  | jne (ra : Byte)
  /-- MUL Ra, Rb, byte 162 (R120). -/
  | mul (ra rb : Byte)
  /-- CMP Ra, Rb, byte 167 (R121). -/
  | cmp (ra rb : Byte)
  /-- ADD Ra, Rb, byte 160 with ALU_DECODE_EXT (R130). -/
  | add (ra rb : Byte)
  /-- SUB Ra, Rb, byte 161 with ALU_DECODE_EXT (R131). -/
  | sub (ra rb : Byte)
  /-- AND Ra, Rb, byte 168 with ALU_DECODE_EXT (R132). -/
  | and (ra rb : Byte)
  /-- INC Ra, byte 101 with ALU_DECODE_EXT (R133). The byte at pc+2 is fetched and ignored, so it is no operand. -/
  | inc (ra : Byte)
  /-- DEC Ra, byte 102 with ALU_DECODE_EXT (R134). The byte at pc+2 is fetched and ignored, so it is no operand. -/
  | dec (ra : Byte)
  deriving DecidableEq, Repr

end Sys2Proof
end

