-- ==== Sys2Proof/WellFormed.lean ====
section
/-! DEFINITION. Which instructions name registers that exist: every register operand is below 8 (10_state.md R24, 30_encoding.md R72,
40_execution_cycle.md R94). An instruction that is not well formed still decodes, and its meaning raises InvalidRegister. -/

namespace Sys2Proof

/-- The operand bytes the decoder marks as register indices (`regchk`, R98), with their position k, in ascending order. -/
def Instr.regOperands : Instr → List (Nat × Byte)
  | .nop => []
  | .halt => []
  | .push ra => [(1, ra)]
  | .pop ra => [(1, ra)]
  | .prn ra => [(1, ra)]
  | .ldi ra _ => [(1, ra)]
  | .jmp ra => [(1, ra)]
  | .jeq ra => [(1, ra)]
  | .jne ra => [(1, ra)]
  | .mul ra rb => [(1, ra), (2, rb)]
  | .cmp ra rb => [(1, ra), (2, rb)]
  | .add ra rb => [(1, ra), (2, rb)]
  | .sub ra rb => [(1, ra), (2, rb)]
  | .and ra rb => [(1, ra), (2, rb)]
  | .inc ra => [(1, ra)]
  | .dec ra => [(1, ra)]

/-- The first register operand that selects no register, with its position: the one InvalidRegister reports (R94). -/
def Instr.badOperand (i : Instr) : Option (Nat × Byte) :=
  i.regOperands.find? fun p => decide (8 ≤ p.2.toNat)

/-- Every register operand selects a register (R24). -/
def Instr.WellFormed (i : Instr) : Bool := i.badOperand.isNone

end Sys2Proof
end

