-- ==== Sys2Proof/Decode.lean ====
section
/-! DEFINITION. The opcode table (30_encoding.md R76, R77), the formats (R71), the decoder on a list of bytes and the encoder.
The decoder is total: it answers an instruction, an invalid opcode, or which byte it lacks. -/

namespace Sys2Proof

/-- The mnemonics of the opcode table, in the order of R76 and then R77. -/
inductive Op where
  | nop | halt | push | pop | prn | ldi | jmp | jeq | jne | mul | cmp
  | add | sub | and | inc | dec
  deriving DecidableEq, Repr

/-- The five instruction formats (R71). -/
inductive Format where
  /-- No operand. -/
  | z
  /-- One register. -/
  | r
  /-- Register and literal. -/
  | ri
  /-- Two registers. -/
  | rr
  /-- One register; a second byte is fetched and ignored (R80). -/
  | rx
  deriving DecidableEq, Repr

/-- What the decoder makes of a list of bytes. -/
inductive DecodeResult where
  /-- The bytes hold this instruction. -/
  | instr (i : Instr)
  /-- The first byte is no opcode of the table (R79). -/
  | invalidOpcode (opc : Byte)
  /-- Byte k of the instruction is wanted and the list ends before it (R93 reports it as OutOfBounds at pc + k). -/
  | missing (k : Nat)
  deriving DecidableEq, Repr

/-- Every row of the table: the eleven of R76, then the five of R77. -/
def Op.all : List Op :=
  [.nop, .halt, .push, .pop, .prn, .ldi, .jmp, .jeq, .jne, .mul, .cmp, .add, .sub, .and, .inc, .dec]

/-- The opcode byte, in the decimal values of R76 and R77.
PRESUMED by the spec for the last five (its passage K2, from the LS-8), unsafe for claims under the extension; log entry 3. -/
def Op.value : Op → Byte
  | .nop => 0#8
  | .halt => 1#8
  | .push => 69#8
  | .pop => 70#8
  | .prn => 71#8
  | .ldi => 130#8
  | .jmp => 84#8
  | .jeq => 85#8
  | .jne => 86#8
  | .mul => 162#8
  | .cmp => 167#8
  | .add => 160#8
  | .sub => 161#8
  | .and => 168#8
  | .inc => 101#8
  | .dec => 102#8

/-- The rows of R77, which decode only when ALU_DECODE_EXT is true (R12). -/
def Op.isExt : Op → Bool
  | .add | .sub | .and | .inc | .dec => true
  | .nop | .halt | .push | .pop | .prn | .ldi | .jmp | .jeq | .jne | .mul | .cmp => false

/-- The format column of R76 and R77. -/
def Op.format : Op → Format
  | .nop | .halt => .z
  | .push | .pop | .prn | .jmp | .jeq | .jne => .r
  | .ldi => .ri
  | .mul | .cmp | .add | .sub | .and => .rr
  | .inc | .dec => .rx

/-- L: how far pc advances when the instruction does not branch (R70, R71). -/
def Format.length : Format → Nat
  | .z => 1
  | .r => 2
  | .ri => 3
  | .rr => 3
  | .rx => 2

/-- F: how many operand bytes the dispatcher reads (R70, R71). For INC and DEC it is 2 although L is 2 (R80). -/
def Format.fetched : Format → Nat
  | .z => 0
  | .r => 1
  | .ri => 2
  | .rr => 2
  | .rx => 2

/-- The row the decoder finds for an opcode byte: all 8 bits are compared (R75), the rows of R77 only under the extension. -/
def Op.ofByte (ext : Bool) (opc : Byte) : Option Op :=
  Op.all.find? fun o => o.value == opc && (ext || !o.isExt)

/-- Format R: the instruction from its one operand byte. -/
def decodeR (mk : Byte → Instr) : List Byte → DecodeResult
  | [] => .missing 1
  | ra :: _ => .instr (mk ra)

/-- Formats RI and RR: the instruction from its two operand bytes. -/
def decodeRR (mk : Byte → Byte → Instr) : List Byte → DecodeResult
  | [] => .missing 1
  | [_] => .missing 2
  | ra :: b2 :: _ => .instr (mk ra b2)

/-- Format RX: two bytes are read, the second is ignored (R80). -/
def decodeRX (mk : Byte → Instr) (bs : List Byte) : DecodeResult :=
  decodeRR (fun ra _ => mk ra) bs

/-- The instruction of a row from the operand bytes that follow its opcode (R93, R95). -/
def Op.assemble (o : Op) (bs : List Byte) : DecodeResult :=
  match o with
  | .nop => .instr .nop
  | .halt => .instr .halt
  | .push => decodeR .push bs
  | .pop => decodeR .pop bs
  | .prn => decodeR .prn bs
  | .ldi => decodeRR .ldi bs
  | .jmp => decodeR .jmp bs
  | .jeq => decodeR .jeq bs
  | .jne => decodeR .jne bs
  | .mul => decodeRR .mul bs
  | .cmp => decodeRR .cmp bs
  | .add => decodeRR .add bs
  | .sub => decodeRR .sub bs
  | .and => decodeRR .and bs
  | .inc => decodeRX .inc bs
  | .dec => decodeRX .dec bs

/-- The decoder on the bytes that can be read from pc upward (R92, R93): the opcode first, then as many operand bytes as the row
fetches. The opcode is judged before any operand byte is wanted (R207). -/
def decode (ext : Bool) : List Byte → DecodeResult
  | [] => .missing 0
  | opc :: bs =>
    match Op.ofByte ext opc with
    | none => .invalidOpcode opc
    | some o => o.assemble bs

/-- The row an instruction belongs to. -/
def Instr.op : Instr → Op
  | .nop => .nop
  | .halt => .halt
  | .push _ => .push
  | .pop _ => .pop
  | .prn _ => .prn
  | .ldi _ _ => .ldi
  | .jmp _ => .jmp
  | .jeq _ => .jeq
  | .jne _ => .jne
  | .mul _ _ => .mul
  | .cmp _ _ => .cmp
  | .add _ _ => .add
  | .sub _ _ => .sub
  | .and _ _ => .and
  | .inc _ => .inc
  | .dec _ => .dec

/-- The operand bytes an instruction is written with, first operand first (R71). -/
def Instr.operands : Instr → List Byte
  | .nop => []
  | .halt => []
  | .push ra => [ra]
  | .pop ra => [ra]
  | .prn ra => [ra]
  | .ldi ra imm => [ra, imm]
  | .jmp ra => [ra]
  | .jeq ra => [ra]
  | .jne ra => [ra]
  | .mul ra rb => [ra, rb]
  | .cmp ra rb => [ra, rb]
  | .add ra rb => [ra, rb]
  | .sub ra rb => [ra, rb]
  | .and ra rb => [ra, rb]
  | .inc ra => [ra]
  | .dec ra => [ra]

/-- The bytes of an instruction, in the order they stand in memory (R70): L of them. -/
def encode (i : Instr) : List Byte := i.op.value :: i.operands

/-- L of an instruction (R81). -/
def Instr.length (i : Instr) : Nat := i.op.format.length

/-- F of an instruction (R70). -/
def Instr.fetched (i : Instr) : Nat := i.op.format.fetched

/-- The bytes of a word whose first byte is its least significant one: `count` bytes from bit 0 upward. -/
def wordBytes : Nat → Nat → List Byte
  | 0, _ => []
  | count + 1, w => trunc8 w :: wordBytes count (w / 256)

/-- The three bytes (the longest instruction) of a table word: the low `nbits` bits of w, every bit above them 0. -/
def tableBytes (nbits w : Nat) : List Byte := wordBytes 3 (w % 2 ^ nbits)

/-- The instruction the decoder reads from a word of spec/opcode_table.json. The table holds the rows of R77 too, each with
`enabled_when` ALU_DECODE_EXT, so the decoder is asked with the extension on; the base rows decode alike either way. -/
def decodeTableWord (nbits w : Nat) : Option Instr :=
  match decode true (tableBytes nbits w) with
  | .instr i => some i
  | .invalidOpcode _ => none
  | .missing _ => none

end Sys2Proof
end

