-- ==== Sys2Proof/Machine/Fetch.lean ====
section
/-! DEFINITION. Fetching an instruction (40_execution_cycle.md R91 to R93), when a step is enabled (R90), and how an instruction is
put where the next step fetches it. -/

namespace Sys2Proof.Machine

/-- The bytes that can be read at pc, pc+1, … in ascending order, at most `n` of them, ending before the first address the address
decoder refuses (R52). Reads have no side effect (R53), so reading bytes that the opcode does not want is not observable. -/
def readRun (s : State) (a : Addr) : Nat → List Byte
  | 0 => []
  | n + 1 =>
    match s.readAddr a with
    | none => []
    | some b => b :: readRun s (a + 1#9) n

/-- The bytes the decoder may see: no instruction is longer than three (R70). -/
def fetchBytes (s : State) : List Byte := readRun s s.pc 3

/-- Fetch and decode at pc (R91, R92, R93). -/
def fetch (s : State) : DecodeResult := decode s.params.aluDecodeExt (fetchBytes s)

/-- Why no step is enabled in this state, if none is (R90): reset is asserted, or the run state is final. -/
def notEnabled (s : State) : Option Fault :=
  if s.rst then some .heldInReset
  else
    match s.run with
    | .running => none
    | .halted => some .halted
    | .faulted => some .faulted

/-- An opcode byte that does not decode: the record holds pc and the byte (R92, R201). -/
def raiseInvalidOpcode (opc : Byte) (s : State) : Result := raise .invalidOpcode s.pc opc s

/-- Byte k of the instruction stands where the address decoder refuses: OutOfBounds at pc + k (R91 for k = 0, R93, R202). -/
def raiseMissingByte (k : Nat) (s : State) : Result := raise .outOfBounds (s.pc + BitVec.ofNat 9 k) 0#8 s

/-- Store bytes at a 9-bit address and upward; what the address decoder refuses is dropped. -/
def storeBytes (s : State) (a : Addr) : List Byte → State
  | [] => s
  | b :: bs =>
    match cellOf a with
    | none => s
    | some c => storeBytes (s.storeByte c b) (a + 1#9) bs

/-- The state whose parameters make the opcode decode: the extension is switched on for an opcode that only it decodes (R12, R77),
and nothing changes for any other. -/
def enableOpcode (s : State) : List Byte → State
  | [] => s
  | opc :: _ =>
    if Op.ofByte s.params.aluDecodeExt opc = none ∧ Op.ofByte true opc ≠ none then
      { s with params := { s.params with aluDecodeExt := true } }
    else s

/-- An instruction's bytes put at pc, with the parameter its opcode needs. -/
def placeInstruction (s : State) (bs : List Byte) : State := storeBytes (enableOpcode s bs) s.pc bs

end Sys2Proof.Machine
end

