-- ==== Sys2Proof/Machine/Step.lean ====
section
/-! DEFINITION. One step (40_execution_cycle.md R90, R99). -/

namespace Sys2Proof.Machine

/-- One step: where none is enabled (R90) the machine stops by name; else fetch and decode, then raise the fetch's fault or run the
instruction's meaning. -/
def step (s : State) : Host.Outcome State Fault Refusal :=
  match notEnabled s with
  | some f => .fault f
  | none =>
    match fetch s with
    | .instr i => exec i s
    | .invalidOpcode opc => raiseInvalidOpcode opc s
    | .missing k => raiseMissingByte k s

/-- The state with a table word's instruction where the next step fetches it, and ALU_DECODE_EXT on where only the extension decodes
its opcode (log entries 3 and 15). -/
def State.withFetchWord (s : State) (nbits w : Nat) : State := placeInstruction s (tableBytes nbits w)

end Sys2Proof.Machine
end

