-- ==== Sys2Proof/Machine/Control.lean ====
section
/-! DEFINITION. The decoder's control word and the step driven by it (40_execution_cycle.md R97, R98, R99; 41_alu.md R122, R126).
This is the spec's second description of the step, kept beside `step` so that a statement can hold the two against each other. -/

namespace Sys2Proof.Machine

/-- Which path of the dispatcher handles the opcode (R76, R98). -/
inductive OpClass where
  | alu | hnd
  deriving DecidableEq, Repr

/-- `wb`: the source written to x[ra] (R98). -/
inductive WriteBack where
  | none | alu | imm | mem
  deriving DecidableEq, Repr

/-- `sp` (R98). -/
inductive SpMove where
  | none | dec | inc
  deriving DecidableEq, Repr

/-- `mem` (R98). -/
inductive MemAccess where
  | none | write | read
  deriving DecidableEq, Repr

/-- `pc_sel` (R97). -/
inductive PcSel where
  | inc | reg | eq | ne | hold
  deriving DecidableEq, Repr

/-- The control word (R98). Its field `valid` is the `some` of `controlOf`. -/
structure Control where
  cls : OpClass
  length : Nat
  fetched : Nat
  regchk : List Nat
  /-- `alu_op` (R123): none where the table shows no code, which is every row of the class HND (R126). -/
  aluOp : Option AluOp
  wb : WriteBack
  flWe : Bool
  sp : SpMove
  mem : MemAccess
  out : Bool
  pcSel : PcSel
  halt : Bool
  deriving DecidableEq, Repr

/-- The table of R98, row by row. -/
def controlWord : Op → Control
  | .nop => ⟨.hnd, 1, 0, [], .none, .none, false, .none, .none, false, .inc, false⟩
  | .halt => ⟨.hnd, 1, 0, [], .none, .none, false, .none, .none, false, .hold, true⟩
  | .push => ⟨.hnd, 2, 1, [1], .none, .none, false, .dec, .write, false, .inc, false⟩
  | .pop => ⟨.hnd, 2, 1, [1], .none, .mem, false, .inc, .read, false, .inc, false⟩
  | .prn => ⟨.hnd, 2, 1, [1], .none, .none, false, .none, .none, true, .inc, false⟩
  | .ldi => ⟨.hnd, 3, 2, [1], .none, .imm, false, .none, .none, false, .inc, false⟩
  | .jmp => ⟨.hnd, 2, 1, [1], .none, .none, false, .none, .none, false, .reg, false⟩
  | .jeq => ⟨.hnd, 2, 1, [1], .none, .none, false, .none, .none, false, .eq, false⟩
  | .jne => ⟨.hnd, 2, 1, [1], .none, .none, false, .none, .none, false, .ne, false⟩
  | .mul => ⟨.alu, 3, 2, [1, 2], some .mul, .alu, false, .none, .none, false, .inc, false⟩
  | .cmp => ⟨.alu, 3, 2, [1, 2], some .cmp, .none, true, .none, .none, false, .inc, false⟩
  | .add => ⟨.alu, 3, 2, [1, 2], some .add, .alu, false, .none, .none, false, .inc, false⟩
  | .sub => ⟨.alu, 3, 2, [1, 2], some .sub, .alu, false, .none, .none, false, .inc, false⟩
  | .and => ⟨.alu, 3, 2, [1, 2], some .and, .alu, false, .none, .none, false, .inc, false⟩
  | .inc => ⟨.alu, 2, 2, [1], some .inc, .alu, false, .none, .none, false, .inc, false⟩
  | .dec => ⟨.alu, 2, 2, [1], some .dec, .alu, false, .none, .none, false, .inc, false⟩

/-- `Decoder(opc, ALU_DECODE_EXT)` (R98, R99): none where the byte is not valid. -/
def controlOf (ext : Bool) (opc : Byte) : Option Control := (Op.ofByte ext opc).map controlWord

/-- `NextPc` (R97). -/
def Control.nextPc (c : Control) (a : RegIx) (s : State) : Addr :=
  match c.pcSel with
  | .inc => s.pc + BitVec.ofNat 9 c.length
  | .reg => zext9 (s.reg a)
  | .eq => if s.flagEqual then zext9 (s.reg a) else s.pc + BitVec.ofNat 9 c.length
  | .ne => if s.flagEqual then s.pc + BitVec.ofNat 9 c.length else zext9 (s.reg a)
  | .hold => s.pc

/-- The SP decrement, and the store at the new SP of x[a] as it then is (R98, PUSH). -/
def Control.store (c : Control) (a : RegIx) (s : State) : State :=
  let s1 := match c.sp with
    | .dec => s.setSp s.pushAddr
    | .inc | .none => s
  match c.mem with
  | .write => s1.storeByte s1.sp (s1.reg a)
  | .read | .none => s1

/-- Whether the ALU has an operation for the control word's op code: not where there is no code, and not for code 7 (R123, R126). -/
def Control.aluDefined (c : Control) : Bool :=
  match c.aluOp with
  | none | some .none => false
  | some .add | some .sub | some .and | some .mul | some .inc | some .dec | some .cmp => true

/-- The value written to x[a], taken from the state the instruction started in (R98, R122). No row writes back an ALU result without
an op code; for such a word nothing is written (log entry 17). -/
def Control.writeBack (c : Control) (a : RegIx) (b2 : Byte) (start : State) (s : State) : State :=
  match c.wb with
  | .alu =>
    match c.aluOp with
    | some op => s.setReg a (op.res (start.reg a) (start.reg (Fin.ofNat 8 b2.toNat)))
    | none => s
  | .imm => s.setReg a b2
  | .mem => s.setReg a (start.byteAt start.sp)
  | .none => s

/-- The SP increment, after the load (R98, POP). -/
def Control.popSp (c : Control) (s : State) : State :=
  match c.sp with
  | .inc => s.bumpSp
  | .dec | .none => s

/-- FL where `fl_we` is set (R98, R122). No row sets it without an op code; for such a word nothing is written (log entry 17). -/
def Control.writeFlags (c : Control) (a : RegIx) (b2 : Byte) (start : State) (s : State) : State :=
  if c.flWe then
    match c.aluOp with
    | some op => s.setFl ((op.flg (start.reg a) (start.reg (Fin.ofNat 8 b2.toNat))).setWidth 8)
    | none => s
  else s

/-- FL, the output port, the run state and the next pc (R97, R98). -/
def Control.finish (c : Control) (a : RegIx) (b2 : Byte) (start : State) (s : State) : State :=
  let s1 := c.writeFlags a b2 start s
  let s2 := if c.out then s1.emit (start.reg a) else s1
  let s3 := if c.halt then s2.halt else s2
  s3.setPc (c.nextPc a start)

/-- `Execute` and `NextPc` (R99) for operand bytes whose register indices have been checked. The first arm is the unreachable one of
R126: every row of the class ALU has one of the codes 0 to 6, and what the arm's record holds is the model's (log entry 17). -/
def Control.execute (c : Control) (ra b2 : Byte) (s : State) : Result :=
  let a : RegIx := Fin.ofNat 8 ra.toNat
  if c.cls = .alu ∧ ¬ c.aluDefined then raise .unsupportedOperation s.pc 0#8 s
  else if c.sp = .dec ∧ s.stackFull then raise .stackOverflow (zext9 s.sp) 0#8 s
  else if c.sp = .inc ∧ s.stackEmpty then raise .stackUnderflow (zext9 s.sp) 0#8 s
  else .next (c.finish a b2 s (c.popSp (c.writeBack a b2 s (c.store a s))))

/-- The operand bytes b[1] to b[n], read in ascending order (R93), or the first k that cannot be read. -/
def readOperands (s : State) (k : Nat) : Nat → Except Nat (List Byte)
  | 0 => .ok []
  | n + 1 =>
    match s.readAddr (s.pc + BitVec.ofNat 9 k) with
    | none => .error k
    | some b =>
      match readOperands s (k + 1) n with
      | .ok bs => .ok (b :: bs)
      | .error j => .error j

/-- The first checked operand that selects no register (R94), with its position. -/
def firstBad (regchk : List Nat) (bs : List Byte) : Option (Nat × Byte) :=
  (regchk.map fun k => (k, bs.getD (k - 1) 0#8)).find? fun p => decide (8 ≤ p.2.toNat)

/-- The whole step of R99, driven by the control word. -/
def stepByControl (s : State) : Result :=
  match notEnabled s with
  | some f => .fault f
  | none =>
    match s.readAddr s.pc with
    | none => raise .outOfBounds s.pc 0#8 s
    | some opc =>
      match controlOf s.params.aluDecodeExt opc with
      | none => raise .invalidOpcode s.pc opc s
      | some c =>
        match readOperands s 1 c.fetched with
        | .error k => raise .outOfBounds (s.pc + BitVec.ofNat 9 k) 0#8 s
        | .ok bs =>
          match firstBad c.regchk bs with
          | some (k, b) => raise .invalidRegister (s.pc + BitVec.ofNat 9 k) b s
          | none => c.execute (bs.getD 0 0#8) (bs.getD 1 0#8) s

end Sys2Proof.Machine
end

