-- ==== Sys2Proof/Machine/HostPort.lean ====
section
/-! DEFINITION. What the host can do to the machine (70_reset_and_hazards.md R230 to R234, R239, R240): reset, the load port, the
launch of a program image, and the observation of a final state. -/

namespace Sys2Proof.Machine

/-- Reset asserted, in any state: every piece of state takes its reset value and every cell is 0x00 (R230, R232). The parameters
are the machine's own and stay. DESIGN CHOICE, unsafe: `run` shows Running already while reset is held; log entry 4. -/
def assertReset (s : State) : State := { State.resetWith s.params with rst := true }

/-- Reset released: the machine is Running from here (R230). -/
def releaseReset (s : State) : State := { s with rst := false }

/-- One write of the load port, `load_addr[7:0]` and `load_data[7:0]`: accepted only while reset is asserted (R234). -/
def loadByte (addr data : Byte) (s : State) : State := if s.rst then s.storeByte addr data else s

/-- A program image written in ascending order from address n upward (R233, R234). -/
def loadImage (n : Nat) : List Byte → State → State
  | [], s => s
  | b :: bs, s => loadImage (n + 1) bs (loadByte (trunc8 n) b s)

/-- Reset, load the image from address 0, release reset (R233). An image of more than 256 bytes is refused and no run starts. -/
def launch (image : List Byte) (s : State) : Result :=
  if maxProgram < image.length then .refused (.imageTooLong image.length)
  else .next (releaseReset (loadImage 0 image (assertReset s)))

/-- The observation of a run's end (R240), with the status outputs as codes (R8, R200). -/
structure Observation where
  state : BitVec 2
  cause : BitVec 3
  fpc : Addr
  faddr : Addr
  fval : Byte
  regs : Vector Byte 8
  fl : Byte
  pc : Addr
  mem : Memory
  out : List Byte
  deriving DecidableEq, Repr

/-- The run state is final (R32). -/
def State.isFinal (s : State) : Bool := s.run != .running

/-- What the host reads: defined in a final state only (R239, R240). OUT alone may be read at any time (`State.out`). -/
def State.observe (s : State) : Option Observation :=
  if s.isFinal then
    some ⟨s.run.code, s.fault.cause.code, s.fault.fpc, s.fault.faddr, s.fault.fval, s.regs, s.fl, s.pc, s.mem, s.out⟩
  else none

end Sys2Proof.Machine
end

