-- ==== Sys2Proof/Safety.lean ====
section
/-! DEFINITION. The words the claims use: when a step is enabled, which fault a step meets first (60_exceptions.md R207), and the
invariant of the machine. -/

namespace Sys2Proof.Machine

/-- A step is enabled: Running, and reset not asserted (40_execution_cycle.md R90). -/
abbrev Enabled (s : State) : Prop := s.run = .running ∧ s.rst = false

/-- The byte at a cell below 256. -/
def cellByte (s : State) (a : Nat) : Byte := Memory.read a s.mem

/-- A safe step ends in a state that is not Faulted (R211). -/
def SafeStep (s : State) : Prop := ∃ t, step s = .next t ∧ t.run ≠ .faulted

/-- The record a fault leaves agrees with the table of R200 and with the pc it stopped at. -/
structure LegalFault (f : FaultRecord) (pc : Addr) : Prop where
  atPc : f.fpc = pc
  raised : f.cause ≠ .none ∧ f.cause ≠ .unsupportedOperation ∧ f.cause ≠ .reserved
  opcode : f.cause = .invalidOpcode → f.faddr = pc ∧ pc.toNat < 256
  bounds : f.cause = .outOfBounds → 256 ≤ f.faddr.toNat ∧ f.faddr.toNat ≤ 258 ∧ f.fval = 0#8
  register : f.cause = .invalidRegister →
    8 ≤ f.fval.toNat ∧ (f.faddr.toNat = pc.toNat + 1 ∨ f.faddr.toNat = pc.toNat + 2) ∧ f.faddr.toNat < 256
  overflow : f.cause = .stackOverflow → f.faddr = 0#9 ∧ f.fval = 0#8
  underflow : f.cause = .stackUnderflow → 0xF4 ≤ f.faddr.toNat ∧ f.faddr.toNat ≤ 255 ∧ f.fval = 0#8

/-- The invariant of the machine: memory keeps its canonical form, pc lies in 0..258 (R29), FL holds FL_RESET or exactly one flag
(R27), and the fault record is written exactly when the run state is Faulted (R33). -/
structure MachineInv (s : State) : Prop where
  memWf : Memory.wf s.mem = true
  pcRange : s.pc.toNat ≤ 258
  flags : s.fl = s.params.flReset ∨ s.fl = 1#8 ∨ s.fl = 2#8 ∨ s.fl = 4#8
  quiet : s.run ≠ .faulted → s.fault = FaultRecord.clear
  recorded : s.run = .faulted → LegalFault s.fault s.pc

/-- The stack fault of an instruction, if it meets one (R204, R205). -/
def stackFaultOf (i : Instr) (s : State) : Option FaultRecord :=
  match i with
  | .push _ => if s.sp.toNat = 0 then some ⟨.stackOverflow, s.pc, zext9 s.sp, 0#8⟩ else none
  | .pop _ => if 0xF4 ≤ s.sp.toNat then some ⟨.stackUnderflow, s.pc, zext9 s.sp, 0#8⟩ else none
  | .nop | .halt | .prn _ | .ldi _ _ | .jmp _ | .jeq _ | .jne _ | .mul _ _ | .cmp _ _ | .add _ _ | .sub _ _ | .and _ _
  | .inc _ | .dec _ => none

/-- The instruction a row's opcode and the next two cells stand for. -/
def instrAt (o : Op) (s : State) : Instr :=
  let b1 := cellByte s (s.pc.toNat + 1)
  let b2 := cellByte s (s.pc.toNat + 2)
  match o with
  | .nop => .nop
  | .halt => .halt
  | .push => .push b1
  | .pop => .pop b1
  | .prn => .prn b1
  | .ldi => .ldi b1 b2
  | .jmp => .jmp b1
  | .jeq => .jeq b1
  | .jne => .jne b1
  | .mul => .mul b1 b2
  | .cmp => .cmp b1 b2
  | .add => .add b1 b2
  | .sub => .sub b1 b2
  | .and => .and b1 b2
  | .inc => .inc b1
  | .dec => .dec b1

/-- The fault an enabled step meets first, in the order of R207, and the record it leaves (R200); none where the instruction
completes. It is written from R207, not from `exec`. UNVERIFIED: the order is the spec's decision D5; log entry 7. -/
def firstFault (s : State) : Option FaultRecord :=
  if 256 ≤ s.pc.toNat then some ⟨.outOfBounds, s.pc, s.pc, 0#8⟩
  else
    match Op.ofByte s.params.aluDecodeExt (cellByte s s.pc.toNat) with
    | none => some ⟨.invalidOpcode, s.pc, s.pc, cellByte s s.pc.toNat⟩
    | some o =>
      if 256 ≤ s.pc.toNat + o.format.fetched then some ⟨.outOfBounds, s.pc, 256#9, 0#8⟩
      else
        match (instrAt o s).badOperand with
        | some (k, b) => some ⟨.invalidRegister, s.pc, s.pc + BitVec.ofNat 9 k, b⟩
        | none => stackFaultOf (instrAt o s) s

end Sys2Proof.Machine
end

