-- ==== Sys2Proof/Certificates/Slice0/Obligations.lean ====
section
/-! DEFINITION. The statements for the provers, and the few words they share. Each docstring names the rule of spec/ it follows, and
the spec's decision (92_eei_decisions.md) where the rule rests on one. -/

namespace Sys2Proof.Claims

open Sys2Proof.Machine

/-- Every cell of memory reads as before. -/
def SameMemory (s t : State) : Prop := ∀ a : Nat, cellByte t a = cellByte s a

/-- Every cell of memory but the one at `c` reads as before. -/
def SameMemoryBut (c : Nat) (s t : State) : Prop := ∀ a : Nat, a ≠ c → cellByte t a = cellByte s a

/-- Every register outside the list is unchanged. -/
def SameRegsBut (l : List RegIx) (s t : State) : Prop := ∀ q : RegIx, q ∉ l → t.reg q = s.reg q

/-- The run state, the fault record, the reset input and the parameters are unchanged. -/
def SameStatus (s t : State) : Prop := t.run = s.run ∧ t.fault = s.fault ∧ t.rst = s.rst ∧ t.params = s.params

/-- Everything but the registers of the list and pc is unchanged: the frame of an instruction that writes registers only. -/
def RegisterFrame (l : List RegIx) (s t : State) : Prop :=
  SameRegsBut l s t ∧ t.fl = s.fl ∧ SameMemory s t ∧ t.out = s.out ∧ SameStatus s t

/-- The answer is fault entry (R208): Faulted, with this record, and everything else as it was. -/
def Faults (s : State) (cause : FaultCause) (faddr : Nat) (fval : Byte) (r : Result) : Prop :=
  r = .next { s with run := .faulted, fault := ⟨cause, s.pc, BitVec.ofNat 9 faddr, fval⟩ }

/-- How an instruction whose opcode byte is `opc` is fetched (R91 to R93): OutOfBounds at pc when pc is 256 or above, OutOfBounds at
256 when operand byte k (1 to F) stands there, and otherwise the step is the meaning of the instruction that the cells hold.
With `ext` the parameter ALU_DECODE_EXT is a premise (R12). -/
def FetchedAs (opc : Byte) (ext : Bool) (F : Nat) (i : Byte → Byte → Instr) (s : State) : Prop :=
  Enabled s → (ext = true → s.params.aluDecodeExt = true) →
    (256 ≤ s.pc.toNat → Faults s .outOfBounds s.pc.toNat 0#8 (step s)) ∧
    (s.pc.toNat < 256 → cellByte s s.pc.toNat = opc →
      (∀ k, 1 ≤ k → k ≤ F → s.pc.toNat + k = 256 → Faults s .outOfBounds 256 0#8 (step s)) ∧
      (s.pc.toNat + F < 256 → step s = exec (i (cellByte s (s.pc.toNat + 1)) (cellByte s (s.pc.toNat + 2))) s))

/-- A one-register instruction raises InvalidRegister for an operand byte of 8 or above (R94, R203). -/
def ChecksOne (mk : Byte → Instr) (s : State) : Prop :=
  ∀ ra : Byte, 8 ≤ ra.toNat → Faults s .invalidRegister (s.pc.toNat + 1) ra (exec (mk ra) s)

/-- A two-register instruction checks its first operand byte, then its second (R94, R203, R207). -/
def ChecksTwo (mk : Byte → Byte → Instr) (s : State) : Prop :=
  (∀ ra rb : Byte, 8 ≤ ra.toNat → Faults s .invalidRegister (s.pc.toNat + 1) ra (exec (mk ra rb) s)) ∧
  (∀ ra rb : Byte, ra.toNat < 8 → 8 ≤ rb.toNat → Faults s .invalidRegister (s.pc.toNat + 2) rb (exec (mk ra rb) s))

/-- An instruction of format RR that completes with `f` of the two registers, mod 256, in its first one (R122, R124, R127). -/
def WritesTwo (mk : Byte → Byte → Instr) (f : Nat → Nat → Nat) (s : State) : Prop :=
  ∀ (ra rb : Byte) (a b : RegIx), ra.toNat = a.val → rb.toNat = b.val →
    ∃ t, exec (mk ra rb) s = .next t ∧
      (t.reg a).toNat = f (s.reg a).toNat (s.reg b).toNat % 256 ∧
      t.pc = s.pc + 3#9 ∧ RegisterFrame [a] s t

/-- An instruction of format RX that completes with `f` of its register, mod 256 (R122, R124). -/
def WritesOne (mk : Byte → Instr) (f : Nat → Nat) (s : State) : Prop :=
  ∀ (ra : Byte) (a : RegIx), ra.toNat = a.val →
    ∃ t, exec (mk ra) s = .next t ∧
      (t.reg a).toNat = f (s.reg a).toNat % 256 ∧
      t.pc = s.pc + 2#9 ∧ RegisterFrame [a] s t

/-- A branch: it loads pc from its register where `taken` says so and moves pc by 2 otherwise; nothing else changes (R97). -/
def Branches (mk : Byte → Instr) (taken : State → Prop) (s : State) : Prop :=
  ∀ (ra : Byte) (a : RegIx), ra.toNat = a.val →
    ∃ t, exec (mk ra) s = .next t ∧
      (taken s → t.pc.toNat = (s.reg a).toNat) ∧ (¬ taken s → t.pc = s.pc + 2#9) ∧ RegisterFrame [] s t

/-- Apply a change of state to a next state. -/
def mapNext (g : State → State) : Result → Result
  | .next t => .next (g t)
  | .fault f => .fault f
  | .refused r => .refused r

/-- The registers an instruction may write: the columns Ra and SP of the table of R26. -/
def writtenRegs : Instr → List RegIx
  | .ldi ra _ | .mul ra _ | .add ra _ | .sub ra _ | .and ra _ | .inc ra | .dec ra => (regIndex ra).toList
  | .push _ => [7]
  | .pop ra => 7 :: (regIndex ra).toList
  | .nop | .halt | .prn _ | .jmp _ | .jeq _ | .jne _ | .cmp _ _ => []

/-- The register a taken jump or branch loads pc from (R30). -/
def jumpsTo (s : State) : Instr → Option RegIx
  | .jmp ra => regIndex ra
  | .jeq ra => if s.fl.getLsbD 0 then regIndex ra else none
  | .jne ra => if s.fl.getLsbD 0 then none else regIndex ra
  | .nop | .halt | .push _ | .pop _ | .prn _ | .ldi _ _ | .mul _ _ | .cmp _ _ | .add _ _ | .sub _ _ | .and _ _ | .inc _
  | .dec _ => none

/-- How far pc advances when the instruction does not jump: the numbers of R30. -/
def advanceOf : Instr → Nat
  | .nop => 1
  | .push _ | .pop _ | .prn _ | .inc _ | .dec _ => 2
  | .ldi _ _ | .mul _ _ | .cmp _ _ | .add _ _ | .sub _ _ | .and _ _ => 3
  | .jmp _ | .jeq _ | .jne _ => 2
  | .halt => 0

/-- The meanings of PUSH in a row, stopping at the first state that is Faulted. -/
def pushAll : List Byte → State → Result
  | [], s => .next s
  | ra :: l, s =>
    match exec (.push ra) s with
    | .next t => if t.run = .faulted then .next t else pushAll l t
    | .fault f => .fault f
    | .refused r => .refused r

/-- The eleven opcode values of the base table (R76). -/
def baseValues : List Byte := [0#8, 1#8, 69#8, 70#8, 71#8, 130#8, 84#8, 85#8, 86#8, 162#8, 167#8]

/-- The five opcode values of the extension (R77). -/
def extValues : List Byte := [160#8, 161#8, 168#8, 101#8, 102#8]

/-- The opcode values of a configuration (R75, R79). -/
def validValues (s : State) : List Byte := baseValues ++ if s.params.aluDecodeExt then extValues else []

/-- The operand bytes fetched for an opcode value: column F of R76 and R77. -/
def fetchedFor (opc : Byte) : Nat :=
  if opc ∈ [0#8, 1#8] then 0 else if opc ∈ [69#8, 70#8, 71#8, 84#8, 85#8, 86#8] then 1 else 2

end Sys2Proof.Claims

open Sys2Proof Sys2Proof.Machine Sys2Proof.Claims

/-! ### One statement per instruction: how it is fetched, where it faults, where it completes and with what -/

/-- R190, whole: NOP is byte 0, adds 1 to pc and has no other effect; its only fault is OutOfBounds(pc). A cell that is neither loaded
nor written decodes as NOP, and after a NOP at 255 the next fetch raises OutOfBounds with faddr = 256. -/
def Obligations.NopOnlyAdvancesPc : Prop :=
  (∀ s, FetchedAs 0#8 false 0 (fun _ _ => .nop) s) ∧
  (∀ s, ∃ t, exec .nop s = .next t ∧ t.pc = s.pc + 1#9 ∧ RegisterFrame [] s t) ∧
  (∀ p a, cellByte (State.resetWith p) a = 0#8) ∧
  (∀ s, Enabled s → s.pc = 255#9 → cellByte s 255 = 0#8 →
    ∃ t, step s = .next t ∧ t.pc = 256#9 ∧ Faults t .outOfBounds 256 0#8 (step t))

/-- 45_system.md section of HALT: HALT is byte 1 and makes the machine Halted, after which no step is enabled.
That pc keeps its value is the spec's decision D10 (log entry 11). -/
def Obligations.HaltStopsTheMachine : Prop :=
  (∀ s, FetchedAs 1#8 false 0 (fun _ _ => .halt) s) ∧
  (∀ s, ∃ t, exec .halt s = .next t ∧ t.run = .halted ∧ t.pc = s.pc ∧ SameRegsBut [] s t ∧ t.fl = s.fl ∧ SameMemory s t ∧
    t.out = s.out ∧ t.fault = s.fault ∧ t.rst = s.rst ∧ t.params = s.params ∧ (s.rst = false → step t = .fault .halted))

/-- 42_stack_data.md section 1: PUSH raises StackOverflow when SP = 0, and otherwise decrements SP and stores the register at the new
SP. The address stored to is `s.pushAddr`, which is SP - 1. That PUSH R7 stores the decremented SP is the spec's decision D16 (log
entry 9), and the bound is D15 (log entry 10). -/
def Obligations.PushStoresAtTheDecrementedSp : Prop :=
  (∀ s, FetchedAs 69#8 false 1 (fun ra _ => .push ra) s) ∧
  (∀ s, ChecksOne .push s) ∧
  (∀ s (ra : Byte), ra.toNat < 8 → s.sp.toNat = 0 → Faults s .stackOverflow 0 0#8 (exec (.push ra) s)) ∧
  (∀ s (ra : Byte) (a : RegIx), ra.toNat = a.val → s.sp.toNat ≠ 0 →
    s.pushAddr.toNat = s.sp.toNat - 1 ∧
    ∃ t, exec (.push ra) s = .next t ∧ t.sp = s.pushAddr ∧
      (Memory.wf s.mem = true → cellByte t s.pushAddr.toNat = if a = 7 then s.pushAddr else s.reg a) ∧
      SameMemoryBut s.pushAddr.toNat s t ∧ t.pc = s.pc + 2#9 ∧ SameRegsBut [7] s t ∧ t.fl = s.fl ∧ t.out = s.out ∧
      SameStatus s t)

/-- 42_stack_data.md section 1: POP raises StackUnderflow when SP is 0xF4 or above, and otherwise loads the register from M[SP] and then
increments SP; the byte stays in memory. That POP R7 leaves M[SP] + 1 in SP is the spec's decision D16 (log entry 9), and the bound
is D14 (log entry 10). -/
def Obligations.PopLoadsThenIncrementsSp : Prop :=
  (∀ s, FetchedAs 70#8 false 1 (fun ra _ => .pop ra) s) ∧
  (∀ s, ChecksOne .pop s) ∧
  (∀ s (ra : Byte), ra.toNat < 8 → 0xF4 ≤ s.sp.toNat → Faults s .stackUnderflow s.sp.toNat 0#8 (exec (.pop ra) s)) ∧
  (∀ s (ra : Byte) (a : RegIx), ra.toNat = a.val → s.sp.toNat < 0xF4 →
    ∃ t, exec (.pop ra) s = .next t ∧
      (a ≠ 7 → t.reg a = cellByte s s.sp.toNat ∧ t.sp.toNat = s.sp.toNat + 1) ∧
      (a = 7 → t.sp.toNat = ((cellByte s s.sp.toNat).toNat + 1) % 256) ∧
      t.pc = s.pc + 2#9 ∧ RegisterFrame [a, 7] s t)

/-- R172, whole: PRN is byte 71 and appends its register to OUT; a PRN that faults emits nothing (`Faults` leaves OUT as it was). -/
def Obligations.PrnEmitsTheRegister : Prop :=
  (∀ s, FetchedAs 71#8 false 1 (fun ra _ => .prn ra) s) ∧
  (∀ s, ChecksOne .prn s) ∧
  (∀ s (ra : Byte) (a : RegIx), ra.toNat = a.val →
    ∃ t, exec (.prn ra) s = .next t ∧ t.out = s.out ++ [s.reg a] ∧ t.pc = s.pc + 2#9 ∧
      SameRegsBut [] s t ∧ t.fl = s.fl ∧ SameMemory s t ∧ SameStatus s t)

/-- R155, whole: LDI is byte 130 and writes its literal byte, which is never checked, to its register; LDI R7 sets SP with no stack
check (the clause holds for a = 7 too). -/
def Obligations.LdiLoadsTheLiteral : Prop :=
  (∀ s, FetchedAs 130#8 false 2 .ldi s) ∧
  (∀ s (imm : Byte), ChecksOne (fun ra => .ldi ra imm) s) ∧
  (∀ s (ra imm : Byte) (a : RegIx), ra.toNat = a.val →
    ∃ t, exec (.ldi ra imm) s = .next t ∧ t.reg a = imm ∧ t.pc = s.pc + 3#9 ∧ RegisterFrame [a] s t)

/-- R180, whole: JMP is byte 84 and loads pc with the zero-extended register; no flag is read (`taken` is always true) or written, and
pc never becomes 256 or above. -/
def Obligations.JmpLoadsPcFromTheRegister : Prop :=
  (∀ s, FetchedAs 84#8 false 1 (fun ra _ => .jmp ra) s) ∧
  (∀ s, ChecksOne .jmp s) ∧
  (∀ s, Branches .jmp (fun _ => True) s) ∧
  (∀ s t (ra : Byte), ra.toNat < 8 → exec (.jmp ra) s = .next t → t.pc.toNat < 256)

/-- 44_control_flow.md, JEQ: byte 85; taken exactly when FL bit 0 is set. That the operand of a branch not taken is fetched and checked
is the spec's decision D13 (log entry 12). -/
def Obligations.JeqBranchesWhenEqual : Prop :=
  (∀ s, FetchedAs 85#8 false 1 (fun ra _ => .jeq ra) s) ∧
  (∀ s, ChecksOne .jeq s) ∧
  (∀ s, Branches .jeq (fun s => s.fl.getLsbD 0 = true) s)

/-- 44_control_flow.md, JNE: byte 86; taken exactly when FL bit 0 is clear. That the operand of a branch not taken is fetched and
checked is the spec's decision D13 (log entry 12). -/
def Obligations.JneBranchesWhenNotEqual : Prop :=
  (∀ s, FetchedAs 86#8 false 1 (fun ra _ => .jne ra) s) ∧
  (∀ s, ChecksOne .jne s) ∧
  (∀ s, Branches .jne (fun s => s.fl.getLsbD 0 = false) s)

/-- R120, whole: MUL is byte 162 and keeps the low 8 bits of the product; FL is unchanged, and R7 is an ordinary register. -/
def Obligations.MulKeepsTheLowByteOfTheProduct : Prop :=
  (∀ s, FetchedAs 162#8 false 2 .mul s) ∧ (∀ s, ChecksTwo .mul s) ∧ (∀ s, WritesTwo .mul (fun a b => a * b) s)

/-- R121, whole: CMP is byte 167 and writes all of FL: 1 if equal, 2 if greater, 4 if less, unsigned. It writes no register. -/
def Obligations.CmpSetsExactlyOneFlag : Prop :=
  (∀ s, FetchedAs 167#8 false 2 .cmp s) ∧ (∀ s, ChecksTwo .cmp s) ∧
  (∀ s (ra rb : Byte) (a b : RegIx), ra.toNat = a.val → rb.toNat = b.val →
    ∃ t, exec (.cmp ra rb) s = .next t ∧
      t.fl = (if (s.reg a).toNat = (s.reg b).toNat then 0b00000001#8
        else if (s.reg a).toNat > (s.reg b).toNat then 0b00000010#8 else 0b00000100#8) ∧
      t.pc = s.pc + 3#9 ∧ SameRegsBut [] s t ∧ SameMemory s t ∧ t.out = s.out ∧ SameStatus s t)

/-- 41_alu.md section 3, ADD, with ALU_DECODE_EXT as a premise (the spec's decision D17, log entry 3). -/
def Obligations.AddWrapsModulo256 : Prop :=
  (∀ s, FetchedAs 160#8 true 2 .add s) ∧ (∀ s, ChecksTwo .add s) ∧ (∀ s, WritesTwo .add (fun a b => a + b) s)

/-- 41_alu.md section 3, SUB, with ALU_DECODE_EXT as a premise (the spec's decision D17, log entry 3). -/
def Obligations.SubWrapsModulo256 : Prop :=
  (∀ s, FetchedAs 161#8 true 2 .sub s) ∧ (∀ s, ChecksTwo .sub s) ∧ (∀ s, WritesTwo .sub (fun a b => a + 256 - b) s)

/-- 41_alu.md section 3, AND, bit by bit, with ALU_DECODE_EXT as a premise (the spec's decision D17, log entry 3). -/
def Obligations.AndIsBitByBit : Prop :=
  (∀ s, FetchedAs 168#8 true 2 .and s) ∧ (∀ s, ChecksTwo .and s) ∧ (∀ s, WritesTwo .and (fun a b => a &&& b) s) ∧
  (∀ s (ra rb : Byte) (a b : RegIx) t, ra.toNat = a.val → rb.toNat = b.val → exec (.and ra rb) s = .next t →
    ∀ k, (t.reg a).getLsbD k = ((s.reg a).getLsbD k && (s.reg b).getLsbD k))

/-- 41_alu.md section 3, INC, with ALU_DECODE_EXT as a premise (the spec's decisions D17 and D18, log entries 3 and 12): two operand
bytes are fetched, the second is ignored, and pc moves by 2. -/
def Obligations.IncWrapsModulo256 : Prop :=
  (∀ s, FetchedAs 101#8 true 2 (fun ra _ => .inc ra) s) ∧ (∀ s, ChecksOne .inc s) ∧ (∀ s, WritesOne .inc (fun a => a + 1) s)

/-- 41_alu.md section 3, DEC, with ALU_DECODE_EXT as a premise (the spec's decisions D17 and D18, log entries 3 and 12): two operand
bytes are fetched, the second is ignored, and pc moves by 2. -/
def Obligations.DecWrapsModulo256 : Prop :=
  (∀ s, FetchedAs 102#8 true 2 (fun ra _ => .dec ra) s) ∧ (∀ s, ChecksOne .dec s) ∧ (∀ s, WritesOne .dec (fun a => a + 255) s)

/-! ### The step and its faults -/

/-- When the bytes at pc decode to an instruction, an enabled step is that instruction's meaning and nothing more (R99); for a fetch
that gives none, the step is fault entry. -/
def Obligations.StepRunsTheDecodedInstruction : Prop :=
  (∀ s i, Enabled s → fetch s = .instr i → step s = exec i s) ∧
  (∀ s b, Enabled s → fetch s = .invalidOpcode b → Faults s .invalidOpcode s.pc.toNat b (step s)) ∧
  (∀ s k, Enabled s → fetch s = .missing k → Faults s .outOfBounds (s.pc.toNat + k) 0#8 (step s))

/-- R201, whole: a byte at pc that is none of the table's values raises InvalidOpcode, recording pc twice and the byte. No operand byte
is fetched: the clause holds at 254 and 255, where an operand fetch would raise OutOfBounds, and whatever the cells after pc hold. -/
def Obligations.UnknownByteRaisesInvalidOpcode : Prop :=
  ∀ s, Enabled s → s.pc.toNat < 256 → cellByte s s.pc.toNat ∉ validValues s →
    Faults s .invalidOpcode s.pc.toNat (cellByte s s.pc.toNat) (step s)

/-- 60_exceptions.md section 1: the address decoder refuses exactly the addresses of 256 and above; a step raises OutOfBounds exactly
when pc is there (faddr = pc) or an operand byte of a valid opcode is (faddr is that address); no meaning raises it, PUSH and POP among
them. Which operand bytes are fetched is R93: that a JEQ or JNE not taken fetches its operand, and INC and DEC the byte at pc + 2, are
the spec's decisions D13 and D18 (log entry 12); that an operand fetch at 256 is reported before any register operand is checked is
its decision D5 (log entry 7). -/
def Obligations.OutOfBoundsExactlyBeyondMemory : Prop :=
  (∀ a : Addr, cellOf a = none ↔ 256 ≤ a.toNat) ∧
  (∀ s, Enabled s →
    ((∃ t, step s = .next t ∧ t.run = .faulted ∧ t.fault.cause = .outOfBounds) ↔
      (256 ≤ s.pc.toNat ∨
        (s.pc.toNat < 256 ∧ cellByte s s.pc.toNat ∈ validValues s ∧
          256 ≤ s.pc.toNat + fetchedFor (cellByte s s.pc.toNat))))) ∧
  (∀ s, Enabled s → 256 ≤ s.pc.toNat → Faults s .outOfBounds s.pc.toNat 0#8 (step s)) ∧
  (∀ s, Enabled s → s.pc.toNat < 256 → cellByte s s.pc.toNat ∈ validValues s →
    256 ≤ s.pc.toNat + fetchedFor (cellByte s s.pc.toNat) → Faults s .outOfBounds 256 0#8 (step s)) ∧
  (∀ i s t, s.run ≠ .faulted → exec i s = .next t → t.run = .faulted → t.fault.cause ≠ .outOfBounds)

/-- 60_exceptions.md section 1: the first operand byte checked as a register index whose value is 8 or above raises InvalidRegister,
recording the byte and its address; an instruction whose register operands are all below 8 never raises it. That the first of two such
bytes is the one recorded (R94, R207) is the spec's decision D5 (log entry 7). -/
def Obligations.BadRegisterIndexRaisesInvalidRegister : Prop :=
  (∀ i s k (b : Byte), i.badOperand = some (k, b) →
    8 ≤ b.toNat ∧ (k, b) ∈ i.regOperands ∧ Faults s .invalidRegister (s.pc.toNat + k) b (exec i s)) ∧
  (∀ i s t, i.WellFormed = true → s.run ≠ .faulted → exec i s = .next t → t.run = .faulted →
    t.fault.cause ≠ .invalidRegister)

/-- 60_exceptions.md section 2: an enabled step meets the first fault in the stated order and no other, and completes where there is
none. The order is the spec's decision D5 (log entry 7). -/
def Obligations.StepTakesTheFirstFaultInOrder : Prop :=
  ∀ s, Enabled s →
    (∀ f, firstFault s = some f → step s = .next { s with run := .faulted, fault := f }) ∧
    (firstFault s = none → ∃ i, fetch s = .instr i ∧ step s = exec i s ∧ SafeStep s)

/-- 60_exceptions.md section 3: a step that faults changes the run state and the fault record and nothing else, records the pc of the
instruction, and never raises the reserved causes. That faults are precise is the spec's decision D6 (log entry 6). -/
def Obligations.FaultsArePrecise : Prop :=
  ∀ s t, step s = .next t → t.run = .faulted →
    t = { s with run := .faulted, fault := t.fault } ∧ t.fault.fpc = s.pc ∧
    t.fault.cause ≠ .none ∧ t.fault.cause ≠ .unsupportedOperation ∧ t.fault.cause ≠ .reserved

/-- 40_execution_cycle.md section 1: a step exists exactly when the machine is Running and reset is not asserted; otherwise it stops,
by name. That a stop is how the model says "no step is enabled" is the model's choice (log entry 5). -/
def Obligations.StepExistsExactlyWhenEnabled : Prop :=
  (∀ s, Enabled s ↔ ∃ t, step s = .next t) ∧
  (∀ s, s.rst = true → step s = .fault .heldInReset) ∧
  (∀ s, s.rst = false → s.run = .halted → step s = .fault .halted) ∧
  (∀ s, s.rst = false → s.run = .faulted → step s = .fault .faulted)

/-- Every instruction answers a next state in every state: it completes, with the fault record and the reset input untouched, where
its operands select registers and its stack check passes, and otherwise it takes a fault (R94, R95). -/
def Obligations.EveryInstructionCompletesOrFaults : Prop :=
  ∀ i s,
    (i.WellFormed = true → stackFaultOf i s = none →
      ∃ t, exec i s = .next t ∧ t.fault = s.fault ∧ t.rst = s.rst ∧
        (t.run = s.run ∧ i ≠ .halt ∨ t.run = .halted ∧ i = .halt)) ∧
    (i.WellFormed = false ∨ stackFaultOf i s ≠ none →
      ∃ t, exec i s = .next t ∧ t.run = .faulted ∧ t.fault.cause ≠ .none ∧ t.fault.fpc = s.pc)

/-- 10_state.md section 5: from a state that meets the invariant, a step writes the fault record exactly when it enters Faulted.
The record is the spec's decision D8 (log entry 6). -/
def Obligations.FaultRecordIsWrittenOnlyOnEntry : Prop :=
  ∀ s t, MachineInv s → step s = .next t → (t.fault ≠ s.fault ↔ t.run = .faulted)

/-! ### Reset, the invariant, the host -/

/-- 10_state.md section 7: reset, from any state, puts every piece of state to its reset value; SP is 0xF4 and pc is 0 for every
parameter choice, and the default parameters give R0 to R6 and FL as zero. The defaults are the spec's decisions D11 and D12
(log entries 1 and 2). -/
def Obligations.ResetGivesTheStatedValues : Prop :=
  (∀ s, ∃ t, releaseReset (assertReset s) = t ∧ t.sp = 0xF4#8 ∧ (∀ k : Fin 7, t.reg k.castSucc = s.params.gprReset[k]) ∧
    t.fl = s.params.flReset ∧ t.pc = 0#9 ∧ t.run = .running ∧ t.fault.cause.code = 0#3 ∧ t.fault.fpc = 0#9 ∧
    t.fault.faddr = 0#9 ∧ t.fault.fval = 0#8 ∧ (∀ a, cellByte t a = 0#8) ∧ t.out = [] ∧ t.rst = false ∧
    t.params = s.params) ∧
  (State.reset.params.aluDecodeExt = false ∧ State.reset.fl = 0#8 ∧
    (∀ k : Fin 7, State.reset.reg k.castSucc = 0#8) ∧ State.reset.sp = 0xF4#8)

/-- The invariant holds after reset, for every parameter choice. -/
def Obligations.ResetMeetsTheInvariant : Prop := ∀ p, MachineInv (State.resetWith p)

/-- Every step keeps the invariant: memory canonical, pc in 0..258, FL at its reset value or with exactly one flag, the fault record
legal in Faulted and clear elsewhere (R27, R29, R33). -/
def Obligations.EveryStepKeepsTheInvariant : Prop := ∀ s t, MachineInv s → step s = .next t → MachineInv t

/-- 70_reset_and_hazards.md section 2: a launch loads the image from address 0, leaves every other cell 0x00 and everything else as
reset puts it; an image of more than 256 bytes is refused, which is the spec's decision D21 (log entry 15). -/
def Obligations.LaunchLoadsTheImage : Prop :=
  ∀ (image : List Byte) (s : State),
    (image.length ≤ 256 →
      ∃ t, launch image s = .next t ∧ t = { State.resetWith s.params with mem := t.mem } ∧ Memory.wf t.mem = true ∧
        ∀ a, cellByte t a = image.getD a 0#8) ∧
    (256 < image.length → launch image s = .refused (.imageTooLong image.length))

/-- 70_reset_and_hazards.md section 2: the load port writes one cell while reset is asserted and is ignored otherwise. -/
def Obligations.LoadPortWorksOnlyInReset : Prop :=
  ∀ (s : State) (addr data : Byte),
    (s.rst = false → loadByte addr data s = s) ∧
    (s.rst = true → Memory.wf s.mem = true →
      cellByte (loadByte addr data s) addr.toNat = data ∧ SameMemoryBut addr.toNat s (loadByte addr data s) ∧
      loadByte addr data s = { s with mem := (loadByte addr data s).mem })

/-- 70_reset_and_hazards.md section 6: the host's observation exists exactly in a final state, and shows the run state as 1 or 2, the
cause as its code, and the registers, FL, pc, memory and OUT as they are. -/
def Obligations.ObservationExistsExactlyAtTheEnd : Prop :=
  ∀ s : State,
    (s.run = .running → s.observe = none) ∧
    (s.run ≠ .running →
      ∃ o, s.observe = some o ∧ (o.state = 1#2 ↔ s.run = .halted) ∧ (o.state = 2#2 ↔ s.run = .faulted) ∧
        o.cause = s.fault.cause.code ∧ o.fpc = s.fault.fpc ∧ o.faddr = s.fault.faddr ∧ o.fval = s.fault.fval ∧
        o.regs = s.regs ∧ o.fl = s.fl ∧ o.pc = s.pc ∧ o.mem = s.mem ∧ o.out = s.out)

/-! ### Whole-machine rules -/

/-- R125: no instruction but CMP writes FL, and no ALU operation other than CMP reads it: with another FL it computes the same. -/
def Obligations.OnlyCmpWritesFl : Prop :=
  (∀ i s t, exec i s = .next t → (∀ ra rb, i ≠ .cmp ra rb) → t.fl = s.fl) ∧
  (∀ (ra rb f : Byte) (s : State), ∀ i ∈ [Instr.mul ra rb, .add ra rb, .sub ra rb, .and ra rb, .inc ra, .dec ra],
    exec i (s.setFl f) = mapNext (fun t => t.setFl f) (exec i s))

/-- 10_state.md section 2: of FL, only bit 0 influences an instruction. Two states that differ in FL's other bits answer alike but for FL. -/
def Obligations.OnlyTheEqualFlagIsRead : Prop :=
  ∀ (i : Instr) (s : State) (f : Byte), f.getLsbD 0 = s.fl.getLsbD 0 →
    ∃ t u, exec i s = .next t ∧ exec i (s.setFl f) = .next u ∧ u.setFl t.fl = t ∧ (u.fl = t.fl ∨ u.fl = f)

/-- 20_memory.md section 2: a step changes at most one cell, only PUSH does, and the cell is the one at SP - 1. -/
def Obligations.OnlyPushWritesMemory : Prop :=
  ∀ s t a, step s = .next t → cellByte t a ≠ cellByte s a →
    ∃ ra, fetch s = .instr (.push ra) ∧ a = s.pushAddr.toNat ∧ s.sp.toNat = a + 1 ∧ t.sp = s.pushAddr

/-- The table of 10_state.md section 1: an instruction changes no register but those the table gives it, and never the reset input or
the parameters. -/
def Obligations.RegistersWrittenAreThoseOfTheTable : Prop :=
  ∀ i s t, exec i s = .next t → SameRegsBut (writtenRegs i) s t ∧ t.rst = s.rst ∧ t.params = s.params

/-- 43_io.md section 1: OUT only grows, by one value, and only through PRN. -/
def Obligations.OnlyPrnWritesTheOutput : Prop :=
  ∀ s t, step s = .next t →
    t.out = s.out ∨ ∃ (ra : Byte) (a : RegIx), fetch s = .instr (.prn ra) ∧ ra.toNat = a.val ∧ t.out = s.out ++ [s.reg a]

/-- 43_io.md section 1 and 40_execution_cycle.md section 3: what was emitted earlier never influences a step. -/
def Obligations.EarlierOutputNeverMatters : Prop :=
  ∀ s t o, step s = .next t → ∃ new, t.out = s.out ++ new ∧ step { s with out := o } = .next { t with out := o ++ new }

/-- 10_state.md section 3: a completed step moves pc by the instruction's length, without a wrap at 256, or loads it from the register
of a taken jump; a HALT or a fault keeps it. No wrap is the spec's decision D3 (log entry 8). That a HALT keeps pc is its decision D10
(log entry 11), and that a fault keeps it is its decision D6 (log entry 6). -/
def Obligations.PcMovesInTheStatedWays : Prop :=
  ∀ s i t, Enabled s → fetch s = .instr i → step s = .next t →
    (t.run = .running → ∀ r, jumpsTo s i = some r → t.pc.toNat = (s.reg r).toNat) ∧
    (t.run = .running → jumpsTo s i = none → t.pc.toNat = s.pc.toNat + advanceOf i) ∧
    (t.run ≠ .running → t.pc = s.pc)

/-- 44_control_flow.md: on one FL value exactly one of JEQ and JNE is taken; the other moves pc by 2. -/
def Obligations.ExactlyOneOfJeqAndJneBranches : Prop :=
  ∀ (s : State) (ra : Byte) (a : RegIx), ra.toNat = a.val →
    ∃ t u, exec (.jeq ra) s = .next t ∧ exec (.jne ra) s = .next u ∧
      ((t.pc.toNat = (s.reg a).toNat ∧ u.pc = s.pc + 2#9) ∨ (u.pc.toNat = (s.reg a).toNat ∧ t.pc = s.pc + 2#9))

/-- 41_alu.md section 2: each ALU result is the exact result mod 256, and AND is bit by bit. -/
def Obligations.AluResultsAreExactModulo256 : Prop :=
  ∀ a b : Byte,
    (AluOp.res .add a b).toNat = (a.toNat + b.toNat) % 256 ∧
    ((AluOp.res .sub a b).toNat : Int) = ((a.toNat : Int) - (b.toNat : Int)) % 256 ∧
    (∀ k, (AluOp.res .and a b).getLsbD k = (a.getLsbD k && b.getLsbD k)) ∧
    (AluOp.res .mul a b).toNat = a.toNat * b.toNat % 256 ∧
    (AluOp.res .inc a b).toNat = (a.toNat + 1) % 256 ∧
    (AluOp.res .dec a b).toNat = (a.toNat + 255) % 256

/-! ### Memory and the stack -/

/-- R54, whole: a write sets one cell to the value mod 256 and changes nothing else, a read after it returns that byte, and a read of
any other address returns what it did. -/
def Obligations.WriteThenReadGivesTheByte : Prop :=
  ∀ (s : State) (c : Byte) (v : Nat), Memory.wf s.mem = true →
    (∃ b, (s.storeByte c (trunc8 v)).readAddr (zext9 c) = some b ∧ b.toNat = v % 256) ∧
    (∀ a : Addr, a.toNat ≠ c.toNat → (s.storeByte c (trunc8 v)).readAddr a = s.readAddr a) ∧
    s.storeByte c (trunc8 v) = { s with mem := (s.storeByte c (trunc8 v)).mem } ∧
    Memory.wf (s.storeByte c (trunc8 v)).mem = true

/-- 42_stack_data.md section 1: PUSH then POP of registers other than SP moves the value and restores SP, for SP from 1 to 0xF4. -/
def Obligations.PushThenPopRoundTrips : Prop :=
  ∀ (s : State) (ra rb : Byte) (a b : RegIx), Memory.wf s.mem = true → 1 ≤ s.sp.toNat → s.sp.toNat ≤ 0xF4 →
    ra.toNat = a.val → rb.toNat = b.val → a ≠ 7 → b ≠ 7 →
    ∃ t u, exec (.push ra) s = .next t ∧ exec (.pop rb) t = .next u ∧ u.reg b = s.reg a ∧ u.sp = s.sp ∧
      cellByte u (s.sp.toNat - 1) = s.reg a

/-- 20_memory.md section 4: the byte a PUSH stores is seen by the next fetch of that address, as an opcode or as an operand. The byte
is the register's value, and for PUSH R7 the decremented SP, which is the spec's decision D16 (log entry 9). -/
def Obligations.FetchSeesThePushedByte : Prop :=
  ∀ (s t : State) (ra : Byte) (a : RegIx) (pc : Addr) (k : Nat), Memory.wf s.mem = true → s.sp.toNat ≠ 0 → ra.toNat = a.val →
    exec (.push ra) s = .next t → k ≤ 2 → pc.toNat + k = s.pushAddr.toNat →
    (fetchBytes (t.setPc pc))[k]? = some (if a = 7 then s.pushAddr else s.reg a)

/-- 42_stack_data.md section 1: from a given SP, exactly SP PUSHes without a POP complete and the next one raises StackOverflow; from
reset that is 244. The bound is the spec's decision D15 (log entry 10). -/
def Obligations.StackHoldsSpPushes : Prop :=
  (∀ (l : List Byte) (s : State), (∀ b ∈ l, b.toNat < 8) → s.run ≠ .faulted → l.length ≤ s.sp.toNat →
    ∃ t, pushAll l s = .next t ∧ t.run = s.run ∧ t.sp.toNat = s.sp.toNat - l.length) ∧
  (∀ (l : List Byte) (s : State), (∀ b ∈ l, b.toNat < 8) → s.run ≠ .faulted → l.length = s.sp.toNat + 1 →
    ∃ t, pushAll l s = .next t ∧ t.run = .faulted ∧ t.fault.cause = .stackOverflow) ∧
  State.reset.sp.toNat = 244

/-! ### Encoding -/

/-- Decoding an encoded instruction gives it back, with every operand byte at every value, whatever follows. INC and DEC want one byte
more than they are written with (the spec's decision D18, log entry 12), so one byte always follows; the others decode without it. -/
def Obligations.DecodeOfEncodeIsTheInstruction : Prop :=
  (∀ (i : Instr) (x : Byte) (rest : List Byte), decode true (encode i ++ x :: rest) = .instr i) ∧
  (∀ i : Instr, i.fetched + 1 = i.length → decode true (encode i) = .instr i) ∧
  (∀ (i : Instr) (x : Byte) (rest : List Byte), i.op.isExt = false → decode false (encode i ++ x :: rest) = .instr i)

/-- Where bytes decode to an instruction, they begin with that instruction's encoding: each word has one meaning and no bit of it is
ignored; and at least F operand bytes were there. -/
def Obligations.EncodeOfDecodeIsWhatWasRead : Prop :=
  ∀ (ext : Bool) (bs : List Byte) (i : Instr), decode ext bs = .instr i →
    bs.take i.length = encode i ∧ i.fetched + 1 ≤ bs.length ∧ (ext = false → i.op.isExt = false)

/-- Words written out from the tables of 30_encoding.md decode to the instructions they stand for, one of each format and family. -/
def Obligations.WordsOfTheSpecDecode : Prop :=
  decode false [0b00000000#8] = .instr .nop ∧ decode false [0b01000101#8, 0b00000111#8] = .instr (.push 7#8) ∧
  decode false [0b10000010#8, 0b00000010#8, 0b11001000#8] = .instr (.ldi 2#8 200#8) ∧
  decode false [0b01010110#8, 0b00000011#8] = .instr (.jne 3#8) ∧
  decode false [0b10100111#8, 0b00000001#8, 0b00000110#8] = .instr (.cmp 1#8 6#8) ∧
  decode true [0b01100110#8, 0b00000011#8, 0b10000010#8] = .instr (.dec 3#8) ∧
  decode false [0b01100110#8, 0b00000011#8, 0b10000010#8] = .invalidOpcode 0b01100110#8

/-- 00_scope.md, ALU_DECODE_EXT: the parameter changes the step of no state whose byte at pc is not one of the five extension values. -/
def Obligations.ExtensionChangesOnlyItsFiveOpcodes : Prop :=
  ∀ (s : State) (e : Bool), (s.pc.toNat < 256 → cellByte s s.pc.toNat ∉ extValues) →
    step { s with params := { s.params with aluDecodeExt := e } } =
      mapNext (fun t => { t with params := { t.params with aluDecodeExt := e } }) (step s)

/-! ### The control word -/

/-- 40_execution_cycle.md sections 2 and 3: the step driven by the decoder's control word is the step that runs the instruction's
meaning, in every state. It holds whatever the ALU puts on the outputs that the spec leaves open (log entry 21) and whatever the
unreachable arm of the control word's step does (log entry 17); the step's way of fetching is that of log entry 13. -/
def Obligations.ControlWordStepIsTheStep : Prop := ∀ s, stepByControl s = step s
end

