-- ==== Sys2Proof/Laws/Memory.lean ====
section
/-! SUPPORT. Memory: a read after a write, the canonical form, the address decoder. -/

namespace Sys2Proof.Machine

/-! ### Read and write -/

theorem Memory.read_cell (a b : Nat) (v : Byte) (m : Memory) (h : Memory.read a m = Memory.blank) :
    Memory.read b (Memory.cell a v m) = if b = a then v else Memory.read b m := by
  unfold Memory.cell
  by_cases hv : v = Memory.blank
  · by_cases hb : b = a <;> simp_all
  · simp [hv, Memory.read]

/-- Every address below `lo` reads as blank where the list starts at `lo` or above. -/
theorem Memory.read_below {lo a : Nat} {m : Memory} (h : Memory.wfFrom lo m = true) (ha : a < lo) :
    Memory.read a m = Memory.blank := by
  induction m generalizing lo with
  | nil => rfl
  | cons c m ih =>
    obtain ⟨b, v⟩ := c
    simp only [Memory.wfFrom, Bool.and_eq_true, decide_eq_true_eq] at h
    obtain ⟨⟨⟨hb, -⟩, -⟩, hm⟩ := h
    have : a ≠ b := by omega
    simp [Memory.read, this, ih hm (by omega)]

theorem Memory.read_write_from {lo : Nat} {m : Memory} (h : Memory.wfFrom lo m = true) (a b : Nat) (v : Byte) :
    Memory.read b (Memory.write a v m) = if b = a then v else Memory.read b m := by
  induction m generalizing lo with
  | nil => exact Memory.read_cell a b v [] rfl
  | cons c m ih =>
    obtain ⟨x, w⟩ := c
    simp only [Memory.wfFrom, Bool.and_eq_true, decide_eq_true_eq] at h
    obtain ⟨⟨⟨hx, hx2⟩, hw⟩, hm⟩ := h
    rw [Memory.write]
    by_cases h1 : a < x
    · rw [if_pos h1]
      exact Memory.read_cell a b v _ (Memory.read_below (lo := x) (by simp [Memory.wfFrom, hx2, hw, hm]) h1)
    rw [if_neg h1]
    by_cases h2 : a = x
    · subst h2
      rw [if_pos rfl, Memory.read_cell a b v m (Memory.read_below hm (by omega))]
      by_cases hb : b = a <;> simp [hb, Memory.read]
    · rw [if_neg h2]
      by_cases hb : b = x
      · have hxa : x ≠ a := fun e => h2 e.symm
        simp [Memory.read, hb, hxa]
      · simp [Memory.read, hb, ih hm]

/-- A read after a write gives the value written at that address and the old value elsewhere (R54). -/
theorem Memory.read_write {m : Memory} (h : Memory.wf m = true) (a b : Nat) (v : Byte) :
    Memory.read b (Memory.write a v m) = if b = a then v else Memory.read b m :=
  Memory.read_write_from h a b v

/-- A write leaves every other address alone, whatever the form of the list. -/
theorem Memory.read_write_ne {a b : Nat} (h : b ≠ a) (v : Byte) (m : Memory) :
    Memory.read b (Memory.write a v m) = Memory.read b m := by
  have hcell : ∀ n : Memory, Memory.read b (Memory.cell a v n) = Memory.read b n := fun n => by
    unfold Memory.cell
    split_ifs <;> simp [Memory.read, h]
  induction m with
  | nil => exact hcell []
  | cons c m ih =>
    obtain ⟨x, w⟩ := c
    rw [Memory.write]
    by_cases h1 : a < x
    · rw [if_pos h1]
      exact hcell _
    rw [if_neg h1]
    by_cases h2 : a = x
    · subst h2
      rw [if_pos rfl, hcell]
      simp [Memory.read, h]
    · rw [if_neg h2]
      simp [Memory.read, ih]

/-! ### The canonical form -/

theorem Memory.wfFrom_mono {lo lo' : Nat} {m : Memory} (h : Memory.wfFrom lo m = true) (hl : lo' ≤ lo) :
    Memory.wfFrom lo' m = true := by
  cases m with
  | nil => rfl
  | cons c m =>
    simp only [Memory.wfFrom, Bool.and_eq_true, decide_eq_true_eq] at h ⊢
    exact ⟨⟨⟨by omega, h.1.1.2⟩, h.1.2⟩, h.2⟩

theorem Memory.wfFrom_cell {lo a : Nat} {v : Byte} {m : Memory} (h : Memory.wfFrom (a + 1) m = true) (hl : lo ≤ a)
    (ha : a < memSize) : Memory.wfFrom lo (Memory.cell a v m) = true := by
  unfold Memory.cell
  split_ifs with hv
  · exact Memory.wfFrom_mono h (by omega)
  · simp [Memory.wfFrom, hl, ha, hv, h]

theorem Memory.wfFrom_write {lo a : Nat} {v : Byte} {m : Memory} (h : Memory.wfFrom lo m = true) (hl : lo ≤ a)
    (ha : a < memSize) : Memory.wfFrom lo (Memory.write a v m) = true := by
  induction m generalizing lo with
  | nil => exact Memory.wfFrom_cell rfl hl ha
  | cons c m ih =>
    obtain ⟨x, w⟩ := c
    simp only [Memory.wfFrom, Bool.and_eq_true, decide_eq_true_eq] at h
    obtain ⟨⟨⟨hx, hx2⟩, hw⟩, hm⟩ := h
    simp only [Memory.write]
    split_ifs with h1 h2
    · exact Memory.wfFrom_cell (by simp [Memory.wfFrom, hx2, hw, hm]; omega) hl ha
    · subst h2
      exact Memory.wfFrom_cell hm hl ha
    · simp only [Memory.wfFrom, Bool.and_eq_true, decide_eq_true_eq]
      exact ⟨⟨⟨hx, hx2⟩, hw⟩, ih hm (by omega)⟩

/-- A write inside the array keeps the canonical form. -/
theorem Memory.wf_write {a : Nat} {v : Byte} {m : Memory} (h : Memory.wf m = true) (ha : a < memSize) :
    Memory.wf (Memory.write a v m) = true :=
  Memory.wfFrom_write h (Nat.zero_le a) ha

theorem Memory.wf_reset (p : Config) : Memory.wf (State.resetWith p).mem = true := rfl

/-- Two memories in canonical form that read alike are the same list. -/
theorem Memory.eq_of_read_from {lo : Nat} {m n : Memory} (hm : Memory.wfFrom lo m = true) (hn : Memory.wfFrom lo n = true)
    (h : ∀ a, Memory.read a m = Memory.read a n) : m = n := by
  induction m generalizing lo n with
  | nil =>
    cases n with
    | nil => rfl
    | cons d n =>
      simp only [Memory.wfFrom, Bool.and_eq_true, decide_eq_true_eq] at hn
      have := h d.1
      simp only [Memory.read, if_true] at this
      exact absurd this.symm hn.1.2
  | cons c m ih =>
    obtain ⟨a, v⟩ := c
    have hm' := hm
    simp only [Memory.wfFrom, Bool.and_eq_true, decide_eq_true_eq] at hm
    cases n with
    | nil =>
      have := h a
      simp only [Memory.read, if_true] at this
      exact absurd this hm.1.2
    | cons d n =>
      obtain ⟨b, w⟩ := d
      have hn' := hn
      simp only [Memory.wfFrom, Bool.and_eq_true, decide_eq_true_eq] at hn
      have hab : a = b := by
        have h1 := h a
        have h2 := h b
        simp only [Memory.read, if_true] at h1 h2
        rcases Nat.lt_trichotomy a b with hlt | heq | hgt
        · have : a ≠ b := by omega
          rw [if_neg this, Memory.read_below hn.2 (by omega)] at h1
          exact absurd h1 hm.1.2
        · exact heq
        · have : b ≠ a := by omega
          rw [if_neg this, Memory.read_below hm.2 (by omega)] at h2
          exact absurd h2.symm hn.1.2
      subst hab
      have hvw : v = w := by simpa [Memory.read] using h a
      subst hvw
      have : m = n := ih hm.2 hn.2 fun x => by
        by_cases hx : x = a
        · subst hx
          rw [Memory.read_below hm.2 (by omega), Memory.read_below hn.2 (by omega)]
        · simpa [Memory.read, hx] using h x
      rw [this]

theorem Memory.eq_of_read {m n : Memory} (hm : Memory.wf m = true) (hn : Memory.wf n = true)
    (h : ∀ a, Memory.read a m = Memory.read a n) : m = n :=
  Memory.eq_of_read_from hm hn h

/-! ### The operations of the state that write memory -/

theorem State.storeByte_wf {s : State} (h : Memory.wf s.mem = true) (c v : Byte) :
    Memory.wf (s.storeByte c v).mem = true := Memory.wf_write h c.isLt

theorem loadByte_wf {s : State} (h : Memory.wf s.mem = true) (c v : Byte) : Memory.wf (loadByte c v s).mem = true := by
  unfold loadByte
  split_ifs
  · exact State.storeByte_wf h c v
  · exact h

theorem loadImage_wf {s : State} (h : Memory.wf s.mem = true) (n : Nat) (bs : List Byte) :
    Memory.wf (loadImage n bs s).mem = true := by
  induction bs generalizing n s with
  | nil => exact h
  | cons b bs ih => exact ih (loadByte_wf h _ _) _

theorem storeBytes_wf {s : State} (h : Memory.wf s.mem = true) (a : Addr) (bs : List Byte) :
    Memory.wf (storeBytes s a bs).mem = true := by
  induction bs generalizing a s with
  | nil => exact h
  | cons b bs ih =>
    unfold storeBytes
    split
    · exact h
    · exact ih (State.storeByte_wf h _ _) _

theorem State.byteAt_storeByte {s : State} (h : Memory.wf s.mem = true) (c d v : Byte) :
    (s.storeByte c v).byteAt d = if d = c then v else s.byteAt d := by
  simp [State.byteAt, State.storeByte, Memory.read_write h, BitVec.toNat_inj]

/-! ### The address decoder (R52) -/

@[simp] theorem cellOf_zext9 (c : Byte) : cellOf (zext9 c) = some c := by
  have h := c.isLt
  have hm : c.toNat % 512 = c.toNat := Nat.mod_eq_of_lt (by omega)
  simp only [cellOf, zext9, BitVec.toNat_setWidth]
  rw [if_pos (show _ < 256 by omega)]
  congr 1
  apply BitVec.eq_of_toNat_eq
  simp only [BitVec.toNat_setWidth]
  omega

theorem cellOf_eq_none_iff (a : Addr) : cellOf a = none ↔ 256 ≤ a.toNat := by
  simp [cellOf]

theorem cellOf_eq_some_iff (a : Addr) (c : Byte) : cellOf a = some c ↔ a.toNat < 256 ∧ c.toNat = a.toNat := by
  simp only [cellOf]
  constructor
  · intro h
    split_ifs at h with ha
    cases h
    have ha' : a.toNat < 256 := ha
    simp only [BitVec.toNat_setWidth]
    omega
  · rintro ⟨ha, hc⟩
    rw [if_pos ha]
    congr 1
    apply BitVec.eq_of_toNat_eq
    simp only [BitVec.toNat_setWidth]
    omega

theorem withCell_zext9 (c : Byte) (s : State) (k : Byte → Result) : withCell (zext9 c) s k = k c := by
  simp [withCell]

end Sys2Proof.Machine
end

