-- ==== Sys2Proof/Laws/State.lean ====
section
/-! SUPPORT. One lemma per field per named update of State, true by rfl, so that no later proof unfolds a record update. -/

namespace Sys2Proof.Machine

variable (s : State)

/-! ### setReg -/

@[simp] theorem State.setReg_regs (r : RegIx) (v : Byte) : (s.setReg r v).regs = s.regs.set r v := rfl
@[simp] theorem State.setReg_fl (r : RegIx) (v : Byte) : (s.setReg r v).fl = s.fl := rfl
@[simp] theorem State.setReg_pc (r : RegIx) (v : Byte) : (s.setReg r v).pc = s.pc := rfl
@[simp] theorem State.setReg_run (r : RegIx) (v : Byte) : (s.setReg r v).run = s.run := rfl
@[simp] theorem State.setReg_fault (r : RegIx) (v : Byte) : (s.setReg r v).fault = s.fault := rfl
@[simp] theorem State.setReg_mem (r : RegIx) (v : Byte) : (s.setReg r v).mem = s.mem := rfl
@[simp] theorem State.setReg_out (r : RegIx) (v : Byte) : (s.setReg r v).out = s.out := rfl
@[simp] theorem State.setReg_rst (r : RegIx) (v : Byte) : (s.setReg r v).rst = s.rst := rfl
@[simp] theorem State.setReg_params (r : RegIx) (v : Byte) : (s.setReg r v).params = s.params := rfl

/-! ### setSp -/

@[simp] theorem State.setSp_regs (v : Byte) : (s.setSp v).regs = s.regs.set spIndex v := rfl
@[simp] theorem State.setSp_fl (v : Byte) : (s.setSp v).fl = s.fl := rfl
@[simp] theorem State.setSp_pc (v : Byte) : (s.setSp v).pc = s.pc := rfl
@[simp] theorem State.setSp_run (v : Byte) : (s.setSp v).run = s.run := rfl
@[simp] theorem State.setSp_fault (v : Byte) : (s.setSp v).fault = s.fault := rfl
@[simp] theorem State.setSp_mem (v : Byte) : (s.setSp v).mem = s.mem := rfl
@[simp] theorem State.setSp_out (v : Byte) : (s.setSp v).out = s.out := rfl
@[simp] theorem State.setSp_rst (v : Byte) : (s.setSp v).rst = s.rst := rfl
@[simp] theorem State.setSp_params (v : Byte) : (s.setSp v).params = s.params := rfl

/-! ### setFl -/

@[simp] theorem State.setFl_regs (v : Byte) : (s.setFl v).regs = s.regs := rfl
@[simp] theorem State.setFl_fl (v : Byte) : (s.setFl v).fl = v := rfl
@[simp] theorem State.setFl_pc (v : Byte) : (s.setFl v).pc = s.pc := rfl
@[simp] theorem State.setFl_run (v : Byte) : (s.setFl v).run = s.run := rfl
@[simp] theorem State.setFl_fault (v : Byte) : (s.setFl v).fault = s.fault := rfl
@[simp] theorem State.setFl_mem (v : Byte) : (s.setFl v).mem = s.mem := rfl
@[simp] theorem State.setFl_out (v : Byte) : (s.setFl v).out = s.out := rfl
@[simp] theorem State.setFl_rst (v : Byte) : (s.setFl v).rst = s.rst := rfl
@[simp] theorem State.setFl_params (v : Byte) : (s.setFl v).params = s.params := rfl

/-! ### setPc -/

@[simp] theorem State.setPc_regs (a : Addr) : (s.setPc a).regs = s.regs := rfl
@[simp] theorem State.setPc_fl (a : Addr) : (s.setPc a).fl = s.fl := rfl
@[simp] theorem State.setPc_pc (a : Addr) : (s.setPc a).pc = a := rfl
@[simp] theorem State.setPc_run (a : Addr) : (s.setPc a).run = s.run := rfl
@[simp] theorem State.setPc_fault (a : Addr) : (s.setPc a).fault = s.fault := rfl
@[simp] theorem State.setPc_mem (a : Addr) : (s.setPc a).mem = s.mem := rfl
@[simp] theorem State.setPc_out (a : Addr) : (s.setPc a).out = s.out := rfl
@[simp] theorem State.setPc_rst (a : Addr) : (s.setPc a).rst = s.rst := rfl
@[simp] theorem State.setPc_params (a : Addr) : (s.setPc a).params = s.params := rfl

/-! ### advance -/

@[simp] theorem State.advance_regs (L : Nat) : (s.advance L).regs = s.regs := rfl
@[simp] theorem State.advance_fl (L : Nat) : (s.advance L).fl = s.fl := rfl
@[simp] theorem State.advance_pc (L : Nat) : (s.advance L).pc = s.pc + BitVec.ofNat 9 L := rfl
@[simp] theorem State.advance_run (L : Nat) : (s.advance L).run = s.run := rfl
@[simp] theorem State.advance_fault (L : Nat) : (s.advance L).fault = s.fault := rfl
@[simp] theorem State.advance_mem (L : Nat) : (s.advance L).mem = s.mem := rfl
@[simp] theorem State.advance_out (L : Nat) : (s.advance L).out = s.out := rfl
@[simp] theorem State.advance_rst (L : Nat) : (s.advance L).rst = s.rst := rfl
@[simp] theorem State.advance_params (L : Nat) : (s.advance L).params = s.params := rfl

/-! ### emit -/

@[simp] theorem State.emit_regs (v : Byte) : (s.emit v).regs = s.regs := rfl
@[simp] theorem State.emit_fl (v : Byte) : (s.emit v).fl = s.fl := rfl
@[simp] theorem State.emit_pc (v : Byte) : (s.emit v).pc = s.pc := rfl
@[simp] theorem State.emit_run (v : Byte) : (s.emit v).run = s.run := rfl
@[simp] theorem State.emit_fault (v : Byte) : (s.emit v).fault = s.fault := rfl
@[simp] theorem State.emit_mem (v : Byte) : (s.emit v).mem = s.mem := rfl
@[simp] theorem State.emit_out (v : Byte) : (s.emit v).out = s.out ++ [v] := rfl
@[simp] theorem State.emit_rst (v : Byte) : (s.emit v).rst = s.rst := rfl
@[simp] theorem State.emit_params (v : Byte) : (s.emit v).params = s.params := rfl

/-! ### halt -/

@[simp] theorem State.halt_regs : (s.halt).regs = s.regs := rfl
@[simp] theorem State.halt_fl : (s.halt).fl = s.fl := rfl
@[simp] theorem State.halt_pc : (s.halt).pc = s.pc := rfl
@[simp] theorem State.halt_run : (s.halt).run = .halted := rfl
@[simp] theorem State.halt_fault : (s.halt).fault = s.fault := rfl
@[simp] theorem State.halt_mem : (s.halt).mem = s.mem := rfl
@[simp] theorem State.halt_out : (s.halt).out = s.out := rfl
@[simp] theorem State.halt_rst : (s.halt).rst = s.rst := rfl
@[simp] theorem State.halt_params : (s.halt).params = s.params := rfl

/-! ### storeByte -/

@[simp] theorem State.storeByte_regs (c v : Byte) : (s.storeByte c v).regs = s.regs := rfl
@[simp] theorem State.storeByte_fl (c v : Byte) : (s.storeByte c v).fl = s.fl := rfl
@[simp] theorem State.storeByte_pc (c v : Byte) : (s.storeByte c v).pc = s.pc := rfl
@[simp] theorem State.storeByte_run (c v : Byte) : (s.storeByte c v).run = s.run := rfl
@[simp] theorem State.storeByte_fault (c v : Byte) : (s.storeByte c v).fault = s.fault := rfl
@[simp] theorem State.storeByte_mem (c v : Byte) : (s.storeByte c v).mem = Memory.write c.toNat v s.mem := rfl
@[simp] theorem State.storeByte_out (c v : Byte) : (s.storeByte c v).out = s.out := rfl
@[simp] theorem State.storeByte_rst (c v : Byte) : (s.storeByte c v).rst = s.rst := rfl
@[simp] theorem State.storeByte_params (c v : Byte) : (s.storeByte c v).params = s.params := rfl

/-! ### takeFault -/

@[simp] theorem State.takeFault_regs (k : FaultCause) (a : Addr) (v : Byte) : (s.takeFault k a v).regs = s.regs := rfl
@[simp] theorem State.takeFault_fl (k : FaultCause) (a : Addr) (v : Byte) : (s.takeFault k a v).fl = s.fl := rfl
@[simp] theorem State.takeFault_pc (k : FaultCause) (a : Addr) (v : Byte) : (s.takeFault k a v).pc = s.pc := rfl
@[simp] theorem State.takeFault_run (k : FaultCause) (a : Addr) (v : Byte) : (s.takeFault k a v).run = .faulted := rfl
@[simp] theorem State.takeFault_fault (k : FaultCause) (a : Addr) (v : Byte) : (s.takeFault k a v).fault = ⟨k, s.pc, a, v⟩ := rfl
@[simp] theorem State.takeFault_mem (k : FaultCause) (a : Addr) (v : Byte) : (s.takeFault k a v).mem = s.mem := rfl
@[simp] theorem State.takeFault_out (k : FaultCause) (a : Addr) (v : Byte) : (s.takeFault k a v).out = s.out := rfl
@[simp] theorem State.takeFault_rst (k : FaultCause) (a : Addr) (v : Byte) : (s.takeFault k a v).rst = s.rst := rfl
@[simp] theorem State.takeFault_params (k : FaultCause) (a : Addr) (v : Byte) : (s.takeFault k a v).params = s.params := rfl

/-! ### bumpSp -/

@[simp] theorem State.bumpSp_regs : (s.bumpSp).regs = s.regs.set spIndex (trunc8 (s.sp.toNat + 1)) := rfl
@[simp] theorem State.bumpSp_fl : (s.bumpSp).fl = s.fl := rfl
@[simp] theorem State.bumpSp_pc : (s.bumpSp).pc = s.pc := rfl
@[simp] theorem State.bumpSp_run : (s.bumpSp).run = s.run := rfl
@[simp] theorem State.bumpSp_fault : (s.bumpSp).fault = s.fault := rfl
@[simp] theorem State.bumpSp_mem : (s.bumpSp).mem = s.mem := rfl
@[simp] theorem State.bumpSp_out : (s.bumpSp).out = s.out := rfl
@[simp] theorem State.bumpSp_rst : (s.bumpSp).rst = s.rst := rfl
@[simp] theorem State.bumpSp_params : (s.bumpSp).params = s.params := rfl

/-! ### aluInto -/

@[simp] theorem State.aluInto_regs (op : AluOp) (a b : RegIx) : (s.aluInto op a b).regs = s.regs.set a (op.res (s.reg a) (s.reg b)) := rfl
@[simp] theorem State.aluInto_fl (op : AluOp) (a b : RegIx) : (s.aluInto op a b).fl = s.fl := rfl
@[simp] theorem State.aluInto_pc (op : AluOp) (a b : RegIx) : (s.aluInto op a b).pc = s.pc := rfl
@[simp] theorem State.aluInto_run (op : AluOp) (a b : RegIx) : (s.aluInto op a b).run = s.run := rfl
@[simp] theorem State.aluInto_fault (op : AluOp) (a b : RegIx) : (s.aluInto op a b).fault = s.fault := rfl
@[simp] theorem State.aluInto_mem (op : AluOp) (a b : RegIx) : (s.aluInto op a b).mem = s.mem := rfl
@[simp] theorem State.aluInto_out (op : AluOp) (a b : RegIx) : (s.aluInto op a b).out = s.out := rfl
@[simp] theorem State.aluInto_rst (op : AluOp) (a b : RegIx) : (s.aluInto op a b).rst = s.rst := rfl
@[simp] theorem State.aluInto_params (op : AluOp) (a b : RegIx) : (s.aluInto op a b).params = s.params := rfl

/-! ### Reading a register -/

/-- A register reads what was last written to it; the others are untouched (R25). -/
@[simp] theorem State.reg_setReg (r q : RegIx) (v : Byte) :
    (s.setReg r v).reg q = if r = q then v else s.reg q := by
  simp [State.setReg, State.reg, Vector.getElem_set, Fin.ext_iff]

@[simp] theorem State.reg_setSp (q : RegIx) (v : Byte) :
    (s.setSp v).reg q = if spIndex = q then v else s.reg q := s.reg_setReg spIndex q v

@[simp] theorem State.reg_bumpSp (q : RegIx) :
    s.bumpSp.reg q = if spIndex = q then trunc8 (s.sp.toNat + 1) else s.reg q := s.reg_setSp q _

@[simp] theorem State.reg_aluInto (op : AluOp) (a b q : RegIx) :
    (s.aluInto op a b).reg q = if a = q then op.res (s.reg a) (s.reg b) else s.reg q := s.reg_setReg a q _

@[simp] theorem State.reg_setFl (q : RegIx) (v : Byte) : (s.setFl v).reg q = s.reg q := rfl
@[simp] theorem State.reg_setPc (q : RegIx) (a : Addr) : (s.setPc a).reg q = s.reg q := rfl
@[simp] theorem State.reg_advance (q : RegIx) (L : Nat) : (s.advance L).reg q = s.reg q := rfl
@[simp] theorem State.reg_emit (q : RegIx) (v : Byte) : (s.emit v).reg q = s.reg q := rfl
@[simp] theorem State.reg_halt (q : RegIx) : s.halt.reg q = s.reg q := rfl
@[simp] theorem State.reg_storeByte (q : RegIx) (c v : Byte) : (s.storeByte c v).reg q = s.reg q := rfl
@[simp] theorem State.reg_takeFault (q : RegIx) (k : FaultCause) (a : Addr) (v : Byte) :
    (s.takeFault k a v).reg q = s.reg q := rfl

/-- SP is x[7] (R23). -/
theorem State.sp_eq_reg : s.sp = s.reg spIndex := rfl

/-! ### Reset (R35) -/

theorem State.resetWith_sp (p : Config) : (State.resetWith p).sp = spReset := by
  simp [State.resetWith, State.sp, State.reg, spIndex]

theorem State.resetWith_reg (p : Config) (r : RegIx) (h : r.val < 7) : (State.resetWith p).reg r = p.gprReset[r.val] := by
  simp [State.resetWith, State.reg, h]

end Sys2Proof.Machine
end

