-- ==== Sys2Proof/Laws/Operands.lean ====
section
/-! SUPPORT. The shared operations of the meanings: the register check, the address check, the stack checks, and what each answers. -/

namespace Sys2Proof.Machine

/-! ### The register check (R24, R94) -/

theorem regIndex_eq_some_iff (b : Byte) (r : RegIx) : regIndex b = some r ↔ b.toNat = r.val := by
  unfold regIndex
  split_ifs with h
  · simp [Fin.ext_iff]
  · simp only [false_iff]
    omega

theorem regIndex_eq_none_iff (b : Byte) : regIndex b = none ↔ 8 ≤ b.toNat := by
  simp [regIndex]

theorem withReg_legal {k : Nat} {b : Byte} {s : State} {f : RegIx → Result} {r : RegIx} (h : b.toNat = r.val) :
    withReg k b s f = f r := by
  simp [withReg, (regIndex_eq_some_iff b r).2 h]

theorem withReg_illegal {k : Nat} {b : Byte} {s : State} {f : RegIx → Result} (h : 8 ≤ b.toNat) :
    withReg k b s f = .next (s.takeFault .invalidRegister (s.pc + BitVec.ofNat 9 k) b) := by
  simp [withReg, (regIndex_eq_none_iff b).2 h, raise]

/-- All that the register check can answer. -/
theorem withReg_next {k : Nat} {b : Byte} {s t : State} {f : RegIx → Result} (h : withReg k b s f = .next t) :
    (∃ r : RegIx, b.toNat = r.val ∧ f r = .next t) ∨
      (8 ≤ b.toNat ∧ t = s.takeFault .invalidRegister (s.pc + BitVec.ofNat 9 k) b) := by
  rcases Nat.lt_or_ge b.toNat 8 with hb | hb
  · exact .inl ⟨⟨b.toNat, hb⟩, rfl, by rwa [withReg_legal (r := ⟨b.toNat, hb⟩) rfl] at h⟩
  · rw [withReg_illegal hb] at h
    exact .inr ⟨hb, by cases h; rfl⟩

theorem withRegs_legal {ra rb : Byte} {s : State} {f : RegIx → RegIx → Result} {a b : RegIx}
    (ha : ra.toNat = a.val) (hb : rb.toNat = b.val) : withRegs ra rb s f = f a b := by
  rw [withRegs, withReg_legal ha, withReg_legal hb]

theorem withRegs_illegal_first {ra rb : Byte} {s : State} {f : RegIx → RegIx → Result} (ha : 8 ≤ ra.toNat) :
    withRegs ra rb s f = .next (s.takeFault .invalidRegister (s.pc + BitVec.ofNat 9 1) ra) :=
  withReg_illegal ha

theorem withRegs_illegal_second {ra rb : Byte} {s : State} {f : RegIx → RegIx → Result} (ha : ra.toNat < 8)
    (hb : 8 ≤ rb.toNat) : withRegs ra rb s f = .next (s.takeFault .invalidRegister (s.pc + BitVec.ofNat 9 2) rb) := by
  rw [withRegs, withReg_legal (r := ⟨ra.toNat, ha⟩) rfl, withReg_illegal hb]

/-! ### The address check (R52) -/

/-- All that the address check can answer. -/
theorem withCell_next {a : Addr} {s t : State} {k : Byte → Result} (h : withCell a s k = .next t) :
    (∃ c : Byte, c.toNat = a.toNat ∧ k c = .next t) ∨ (256 ≤ a.toNat ∧ t = s.takeFault .outOfBounds a 0#8) := by
  unfold withCell at h
  cases hc : cellOf a with
  | some c =>
    rw [hc] at h
    exact .inl ⟨c, ((cellOf_eq_some_iff a c).1 hc).2, h⟩
  | none =>
    rw [hc] at h
    exact .inr ⟨(cellOf_eq_none_iff a).1 hc, by cases h; rfl⟩

/-! ### The stack (R150, R152) -/

theorem State.stackFull_iff (s : State) : s.stackFull = true ↔ s.sp.toNat = 0 := by
  simp [State.stackFull, ← BitVec.toNat_inj]

theorem State.stackEmpty_iff (s : State) : s.stackEmpty = true ↔ 0xF4 ≤ s.sp.toNat := by
  simp [State.stackEmpty, stackTop]

theorem State.pushAddr_toNat (s : State) (h : s.sp.toNat ≠ 0) : s.pushAddr.toNat = s.sp.toNat - 1 := by
  have := s.sp.isLt
  simp only [State.pushAddr, trunc8, BitVec.toNat_ofNat]
  omega

@[simp] theorem zext9_toNat (b : Byte) : (zext9 b).toNat = b.toNat := by
  have := b.isLt
  simp only [zext9, BitVec.toNat_setWidth]
  omega

@[simp] theorem trunc8_toNat (n : Nat) : (trunc8 n).toNat = n % 256 := by
  simp [trunc8]

end Sys2Proof.Machine
end

