-- ==== Sys2Proof/Laws/Exec.lean ====
section
/-! SUPPORT. What each meaning answers when its operands select registers (and its stack check passes): one equation per
instruction, over the named updates of State; and `exec_eq`, which says once everything any meaning can answer. -/

namespace Sys2Proof.Machine

variable {ra rb imm : Byte} {a b r : RegIx} {s : State}

theorem aluTwo_legal (op : AluOp) (ha : ra.toNat = a.val) (hb : rb.toNat = b.val) :
    aluTwo op ra rb s = .next ((s.aluInto op a b).advance 3) := withRegs_legal ha hb

theorem aluOne_legal (op : AluOp) (ha : ra.toNat = a.val) :
    aluOne op ra s = .next ((s.aluInto op a a).advance 2) := withReg_legal ha

theorem execCmp_legal (ha : ra.toNat = a.val) (hb : rb.toNat = b.val) :
    execCmp ra rb s = .next ((s.setFl (cmpFlags (s.reg a) (s.reg b))).advance 3) := withRegs_legal ha hb

theorem execLdi_legal (ha : ra.toNat = r.val) : execLdi ra imm s = .next ((s.setReg r imm).advance 3) := withReg_legal ha

theorem execPrn_legal (ha : ra.toNat = r.val) : execPrn ra s = .next ((s.emit (s.reg r)).advance 2) := withReg_legal ha

theorem branchIf_legal (taken : Bool) (ha : ra.toNat = r.val) :
    branchIf taken ra s = .next (if taken then s.setPc (s.target r) else s.advance 2) := withReg_legal ha

theorem execPush_full (ha : ra.toNat = r.val) (h : s.sp.toNat = 0) :
    execPush ra s = .next (s.takeFault .stackOverflow (zext9 s.sp) 0#8) := by
  rw [execPush, withReg_legal ha, if_pos ((State.stackFull_iff s).2 h)]
  rfl

theorem execPush_room (ha : ra.toNat = r.val) (h : s.sp.toNat ≠ 0) :
    execPush ra s =
      .next (((s.setSp s.pushAddr).storeByte s.pushAddr ((s.setSp s.pushAddr).reg r)).advance 2) := by
  rw [execPush, withReg_legal ha, if_neg (fun e => h ((State.stackFull_iff s).1 e)), withCell_zext9]

theorem execPop_empty (ha : ra.toNat = r.val) (h : 0xF4 ≤ s.sp.toNat) :
    execPop ra s = .next (s.takeFault .stackUnderflow (zext9 s.sp) 0#8) := by
  rw [execPop, withReg_legal ha, if_pos ((State.stackEmpty_iff s).2 h)]
  rfl

theorem execPop_some (ha : ra.toNat = r.val) (h : s.sp.toNat < 0xF4) :
    execPop ra s = .next ((s.setReg r (s.byteAt s.sp)).bumpSp.advance 2) := by
  have hne : ¬ s.stackEmpty = true := fun e => absurd ((State.stackEmpty_iff s).1 e) (by omega)
  rw [execPop, withReg_legal ha, if_neg hne, State.popAddr, withCell_zext9]

/-! ### Everything a meaning can answer -/

/-- The register an operand byte below 8 selects. -/
def pick (b : Byte) : RegIx := Fin.ofNat 8 b.toNat

theorem pick_val {b : Byte} (h : b.toNat < 8) : b.toNat = (pick b).val := by
  simp only [pick, Fin.val_ofNat]
  omega

theorem pick_eq {b : Byte} {r : RegIx} (h : b.toNat = r.val) : pick b = r := by
  have := r.isLt
  simp only [pick, Fin.ext_iff, Fin.val_ofNat]
  omega

/-- The state an instruction leaves when it raises no fault. -/
def completed (i : Instr) (s : State) : State :=
  match i with
  | .nop => s.advance 1
  | .halt => s.halt
  | .push ra => ((s.setSp s.pushAddr).storeByte s.pushAddr ((s.setSp s.pushAddr).reg (pick ra))).advance 2
  | .pop ra => (s.setReg (pick ra) (s.byteAt s.sp)).bumpSp.advance 2
  | .prn ra => (s.emit (s.reg (pick ra))).advance 2
  | .ldi ra imm => (s.setReg (pick ra) imm).advance 3
  | .jmp ra => s.setPc (s.target (pick ra))
  | .jeq ra => if s.flagEqual then s.setPc (s.target (pick ra)) else s.advance 2
  | .jne ra => if s.flagEqual then s.advance 2 else s.setPc (s.target (pick ra))
  | .mul ra rb => (s.aluInto .mul (pick ra) (pick rb)).advance 3
  | .cmp ra rb => (s.setFl (cmpFlags (s.reg (pick ra)) (s.reg (pick rb)))).advance 3
  | .add ra rb => (s.aluInto .add (pick ra) (pick rb)).advance 3
  | .sub ra rb => (s.aluInto .sub (pick ra) (pick rb)).advance 3
  | .and ra rb => (s.aluInto .and (pick ra) (pick rb)).advance 3
  | .inc ra => (s.aluInto .inc (pick ra) (pick ra)).advance 2
  | .dec ra => (s.aluInto .dec (pick ra) (pick ra)).advance 2

/-- What exec answers: the bad register operand's fault, else the stack fault, else the completed state. -/
def answer (i : Instr) (s : State) : State :=
  match i.badOperand with
  | some (k, b) => s.takeFault .invalidRegister (s.pc + BitVec.ofNat 9 k) b
  | none =>
    match stackFaultOf i s with
    | some f => s.takeFault f.cause f.faddr f.fval
    | none => completed i s

theorem answer_bad {i : Instr} {k : Nat} {v : Byte} (h : i.badOperand = some (k, v)) :
    answer i s = s.takeFault .invalidRegister (s.pc + BitVec.ofNat 9 k) v := by
  simp [answer, h]

theorem answer_good {i : Instr} (h : i.badOperand = none) (hs : stackFaultOf i s = none) :
    answer i s = completed i s := by
  simp [answer, h, hs]

/-- One register operand: the bad operand is it, if it is 8 or above. -/
theorem badOperand_one {i : Instr} (h : i.regOperands = [(1, ra)]) :
    i.badOperand = if 8 ≤ ra.toNat then some (1, ra) else none := by
  by_cases hr : 8 ≤ ra.toNat <;> simp [Instr.badOperand, h, hr]

/-- Two register operands: the bad operand is the first that is 8 or above. -/
theorem badOperand_two {i : Instr} (h : i.regOperands = [(1, ra), (2, rb)]) :
    i.badOperand = if 8 ≤ ra.toNat then some (1, ra) else if 8 ≤ rb.toNat then some (2, rb) else none := by
  by_cases hr : 8 ≤ ra.toNat <;> by_cases hb : 8 ≤ rb.toNat <;> simp [Instr.badOperand, h, hr, hb]

theorem exec_one {i : Instr} (hi : i.regOperands = [(1, ra)])
    (hl : ra.toNat < 8 → exec i s = .next (match stackFaultOf i s with
      | some f => s.takeFault f.cause f.faddr f.fval
      | none => completed i s))
    (hx : 8 ≤ ra.toNat → exec i s = .next (s.takeFault .invalidRegister (s.pc + BitVec.ofNat 9 1) ra)) :
    exec i s = .next (answer i s) := by
  have hb := badOperand_one hi
  rcases Nat.lt_or_ge ra.toNat 8 with h | h
  · rw [if_neg (by omega)] at hb
    rw [hl h, answer, hb]
  · rw [if_pos h] at hb
    rw [hx h, answer_bad hb]

theorem exec_two {i : Instr} {f : RegIx → RegIx → Result} (he : exec i s = withRegs ra rb s f)
    (hi : i.regOperands = [(1, ra), (2, rb)]) (hs : stackFaultOf i s = none)
    (hf : f (pick ra) (pick rb) = .next (completed i s)) : exec i s = .next (answer i s) := by
  have hb := badOperand_two hi
  rcases Nat.lt_or_ge ra.toNat 8 with h | h
  · rw [if_neg (by omega)] at hb
    rcases Nat.lt_or_ge rb.toNat 8 with h' | h'
    · rw [if_neg (by omega)] at hb
      rw [he, withRegs_legal (pick_val h) (pick_val h'), hf, answer_good hb hs]
    · rw [if_pos h'] at hb
      rw [he, withRegs_illegal_second h h', answer_bad hb]
  · rw [if_pos h] at hb
    rw [he, withRegs_illegal_first h, answer_bad hb]

/-- Every meaning answers a next state, and this one. -/
theorem exec_eq (i : Instr) (s : State) : exec i s = .next (answer i s) := by
  cases i with
  | nop => rfl
  | halt => rfl
  | push ra =>
    refine exec_one rfl (fun h => ?_) withReg_illegal
    by_cases h0 : s.sp.toNat = 0
    · rw [show stackFaultOf (.push ra) s = some ⟨.stackOverflow, s.pc, zext9 s.sp, 0#8⟩ from by simp [stackFaultOf, h0]]
      exact execPush_full (pick_val h) h0
    · rw [show stackFaultOf (.push ra) s = none from by simp [stackFaultOf, h0]]
      exact execPush_room (pick_val h) h0
  | pop ra =>
    refine exec_one rfl (fun h => ?_) withReg_illegal
    by_cases h0 : 0xF4 ≤ s.sp.toNat
    · rw [show stackFaultOf (.pop ra) s = some ⟨.stackUnderflow, s.pc, zext9 s.sp, 0#8⟩ from by simp [stackFaultOf, h0]]
      exact execPop_empty (pick_val h) h0
    · rw [show stackFaultOf (.pop ra) s = none from by simp [stackFaultOf, h0]]
      exact execPop_some (pick_val h) (by omega)
  | prn ra => exact exec_one rfl (fun h => execPrn_legal (pick_val h)) withReg_illegal
  | ldi ra imm => exact exec_one rfl (fun h => execLdi_legal (pick_val h)) withReg_illegal
  | jmp ra => exact exec_one rfl (fun h => branchIf_legal true (pick_val h)) withReg_illegal
  | jeq ra => exact exec_one rfl (fun h => branchIf_legal s.flagEqual (pick_val h)) withReg_illegal
  | jne ra =>
    refine exec_one rfl (fun h => (branchIf_legal (!s.flagEqual) (pick_val h)).trans ?_) withReg_illegal
    simp only [stackFaultOf, completed]
    cases s.flagEqual <;> rfl
  | mul ra rb => exact exec_two rfl rfl rfl rfl
  | cmp ra rb => exact exec_two rfl rfl rfl rfl
  | add ra rb => exact exec_two rfl rfl rfl rfl
  | sub ra rb => exact exec_two rfl rfl rfl rfl
  | and ra rb => exact exec_two rfl rfl rfl rfl
  | inc ra => exact exec_one rfl (fun h => aluOne_legal .inc (pick_val h)) withReg_illegal
  | dec ra => exact exec_one rfl (fun h => aluOne_legal .dec (pick_val h)) withReg_illegal

end Sys2Proof.Machine
end

