-- ==== Sys2Proof/Laws/Fetch.lean ====
section
/-! SUPPORT. Fetch: which bytes the decoder sees at each pc, and what it answers. -/

namespace Sys2Proof.Machine

/-! ### The decoder -/

theorem Op.ofByte_value (ext : Bool) (b : Byte) (o : Op) (h : Op.ofByte ext b = some o) : o.value = b := by
  have := List.find?_some h
  simp only [Bool.and_eq_true, beq_iff_eq] at this
  exact this.1

/-- The decoder on an opcode and at least as many operand bytes as its row fetches. -/
theorem decode_row {ext : Bool} {opc : Byte} {o : Op} (h : Op.ofByte ext opc = some o) (bs : List Byte) :
    decode ext (opc :: bs) = o.assemble bs := by
  simp [decode, h]

theorem decode_invalid {ext : Bool} {opc : Byte} (h : Op.ofByte ext opc = none) (bs : List Byte) :
    decode ext (opc :: bs) = .invalidOpcode opc := by
  simp [decode, h]

/-! ### The bytes at pc -/

theorem State.readAddr_below {s : State} {a : Addr} (h : a.toNat < 256) : s.readAddr a = some (cellByte s a.toNat) := by
  cases hc : cellOf a with
  | none => exact absurd ((cellOf_eq_none_iff a).1 hc) (by omega)
  | some c => simp [State.readAddr, hc, State.byteAt, cellByte, ((cellOf_eq_some_iff a c).1 hc).2]

theorem State.readAddr_above {s : State} {a : Addr} (h : 256 ≤ a.toNat) : s.readAddr a = none := by
  simp [State.readAddr, (cellOf_eq_none_iff a).2 h]

theorem addr_add_toNat {a : Addr} {k : Nat} (h : a.toNat + k < 512) : (a + BitVec.ofNat 9 k).toNat = a.toNat + k := by
  simp only [BitVec.toNat_add, BitVec.toNat_ofNat]
  omega

theorem readRun_below {s : State} {a : Addr} (n : Nat) (h : a.toNat < 256) :
    readRun s a (n + 1) = cellByte s a.toNat :: readRun s (a + 1#9) n := by
  simp [readRun, State.readAddr_below h]

theorem readRun_above {s : State} {a : Addr} (n : Nat) (h : 256 ≤ a.toNat) : readRun s a n = [] := by
  cases n with
  | zero => rfl
  | succ n => simp [readRun, State.readAddr_above h]

theorem fetchBytes_off {s : State} (h : 256 ≤ s.pc.toNat) : fetchBytes s = [] := readRun_above 3 h

/-- Below 256 the opcode is read, and the operand bytes end at the top of memory. -/
theorem fetchBytes_on {s : State} (h : s.pc.toNat < 256) :
    fetchBytes s = cellByte s s.pc.toNat ::
      (if s.pc.toNat + 1 < 256 then cellByte s (s.pc.toNat + 1) ::
        (if s.pc.toNat + 2 < 256 then [cellByte s (s.pc.toNat + 2)] else []) else []) := by
  have h1 : (s.pc + 1#9).toNat = s.pc.toNat + 1 := addr_add_toNat (k := 1) (by omega)
  rw [fetchBytes, readRun_below 2 h]
  congr 1
  split_ifs with hb hc
  · have h2 : (s.pc + 1#9 + 1#9).toNat = s.pc.toNat + 2 := by
      rw [addr_add_toNat (a := s.pc + 1#9) (k := 1) (by omega), h1]
    rw [readRun_below 1 (by omega), readRun_below 0 (by omega), h1, h2]
    rfl
  · have h2 : (s.pc + 1#9 + 1#9).toNat = s.pc.toNat + 2 := by
      rw [addr_add_toNat (a := s.pc + 1#9) (k := 1) (by omega), h1]
    rw [readRun_below 1 (by omega), readRun_above 1 (by omega), h1]
  · exact readRun_above 2 (by omega)

/-! ### What fetch answers -/

theorem fetch_off {s : State} (h : 256 ≤ s.pc.toNat) : fetch s = .missing 0 := by
  simp [fetch, fetchBytes_off h, decode]

theorem fetch_invalid {s : State} (h : s.pc.toNat < 256)
    (ho : Op.ofByte s.params.aluDecodeExt (cellByte s s.pc.toNat) = none) :
    fetch s = .invalidOpcode (cellByte s s.pc.toNat) := by
  rw [fetch, fetchBytes_on h, decode_invalid ho]

/-- Every operand byte the row fetches lies below 256: fetch gives the instruction the cells stand for. -/
theorem fetch_row {s : State} {o : Op} (ho : Op.ofByte s.params.aluDecodeExt (cellByte s s.pc.toNat) = some o)
    (h : s.pc.toNat + o.format.fetched < 256) : fetch s = .instr (instrAt o s) := by
  rw [fetch, fetchBytes_on (by omega), decode_row ho]
  cases o <;> simp only [Op.format, Format.fetched] at h <;> (repeat rw [if_pos (by omega)]) <;> rfl

/-- An operand byte the row fetches lies at 256: fetch reports it, by its position. -/
theorem fetch_short {s : State} {o : Op} (ho : Op.ofByte s.params.aluDecodeExt (cellByte s s.pc.toNat) = some o)
    (hp : s.pc.toNat < 256) (h : 256 ≤ s.pc.toNat + o.format.fetched) : fetch s = .missing (256 - s.pc.toNat) := by
  rw [fetch, fetchBytes_on hp, decode_row ho]
  have hF : o.format.fetched ≤ 2 := by cases o <;> decide
  have : s.pc.toNat = 255 ∨ s.pc.toNat = 254 := by omega
  rcases this with e | e <;> rw [e] at h ⊢ <;>
    cases o <;> simp only [Op.format, Format.fetched] at h <;> first | (exfalso; omega) | rfl

/-! ### The step -/

theorem notEnabled_eq_none_iff (s : State) : notEnabled s = none ↔ Enabled s := by
  obtain ⟨_, _, _, run, _, _, _, rst, _⟩ := s
  cases rst <;> cases run <;> simp [notEnabled, Enabled]

theorem step_enabled {s : State} (h : Enabled s) :
    step s = match fetch s with
      | .instr i => exec i s
      | .invalidOpcode opc => raiseInvalidOpcode opc s
      | .missing k => raiseMissingByte k s := by
  cases hf : fetch s <;> simp only [step, (notEnabled_eq_none_iff s).2 h, hf]

/-- Only an enabled step answers a next state. -/
theorem enabled_of_step {s t : State} (h : step s = .next t) : Enabled s := by
  cases hn : notEnabled s with
  | none => exact (notEnabled_eq_none_iff s).1 hn
  | some f => simp [step, hn] at h

end Sys2Proof.Machine
end

