-- ==== Sys2Proof/Laws/PerInstr.lean ====
section
/-! SUPPORT. One statement per instruction, as syntax: how its encoding is laid out (30_encoding.md R70 to R72, R76, R77). -/

namespace Sys2Proof.Laws.Layout

/-- The encoding has L bytes; its first byte is the row's opcode, which the decoder finds under the extension; and each register
operand stands at its position. -/
def Statement (i : Instr) : Prop :=
  (encode i).length = i.length ∧
  (∃ opc, (encode i).head? = some opc ∧ Op.ofByte true opc = some i.op) ∧
  ∀ p ∈ i.regOperands, (encode i)[p.1]? = some p.2

/-- An instruction without a register operand. -/
theorem of_none {i : Instr} (hr : i.regOperands = []) (hl : (encode i).length = i.length)
    (ho : Op.ofByte true i.op.value = some i.op) : Statement i :=
  ⟨hl, ⟨_, rfl, ho⟩, fun p hp => by simp [hr] at hp⟩

/-- An instruction whose only register operand is its first operand byte. -/
theorem of_one {i : Instr} {ra : Byte} (hr : i.regOperands = [(1, ra)]) (hl : (encode i).length = i.length)
    (ho : Op.ofByte true i.op.value = some i.op) (h1 : (encode i)[1]? = some ra) : Statement i :=
  ⟨hl, ⟨_, rfl, ho⟩, fun p hp => by
    rw [hr, List.mem_singleton] at hp
    rw [hp]
    exact h1⟩

/-- An instruction with two register operands. -/
theorem of_two {i : Instr} {ra rb : Byte} (hr : i.regOperands = [(1, ra), (2, rb)]) (hl : (encode i).length = i.length)
    (ho : Op.ofByte true i.op.value = some i.op) (h1 : (encode i)[1]? = some ra) (h2 : (encode i)[2]? = some rb) :
    Statement i :=
  ⟨hl, ⟨_, rfl, ho⟩, fun p hp => by
    rw [hr, List.mem_cons, List.mem_singleton] at hp
    rcases hp with e | e <;> rw [e]
    exacts [h1, h2]⟩

theorem nop : Statement .nop := of_none rfl rfl rfl
theorem halt : Statement .halt := of_none rfl rfl rfl
theorem push (ra : Byte) : Statement (.push ra) := of_one rfl rfl rfl rfl
theorem pop (ra : Byte) : Statement (.pop ra) := of_one rfl rfl rfl rfl
theorem prn (ra : Byte) : Statement (.prn ra) := of_one rfl rfl rfl rfl
theorem ldi (ra imm : Byte) : Statement (.ldi ra imm) := of_one rfl rfl rfl rfl
theorem jmp (ra : Byte) : Statement (.jmp ra) := of_one rfl rfl rfl rfl
theorem jeq (ra : Byte) : Statement (.jeq ra) := of_one rfl rfl rfl rfl
theorem jne (ra : Byte) : Statement (.jne ra) := of_one rfl rfl rfl rfl
theorem mul (ra rb : Byte) : Statement (.mul ra rb) := of_two rfl rfl rfl rfl rfl
theorem cmp (ra rb : Byte) : Statement (.cmp ra rb) := of_two rfl rfl rfl rfl rfl
theorem add (ra rb : Byte) : Statement (.add ra rb) := of_two rfl rfl rfl rfl rfl
theorem sub (ra rb : Byte) : Statement (.sub ra rb) := of_two rfl rfl rfl rfl rfl
theorem and (ra rb : Byte) : Statement (.and ra rb) := of_two rfl rfl rfl rfl rfl
theorem inc (ra : Byte) : Statement (.inc ra) := of_one rfl rfl rfl rfl
theorem dec (ra : Byte) : Statement (.dec ra) := of_one rfl rfl rfl rfl

end Sys2Proof.Laws.Layout
end

