-- ==== Sys2Proof/Laws/Step.lean ====
section
/-! SUPPORT. Everything an enabled step can do, said once: three faults of the fetch, or the answer of the fetched instruction. -/

namespace Sys2Proof.Machine

/-- What the opcode byte at pc decodes to in this configuration. -/
def rowAt (s : State) : Option Op := Op.ofByte s.params.aluDecodeExt (cellByte s s.pc.toNat)

theorem step_off {s : State} (h : Enabled s) (hp : 256 ≤ s.pc.toNat) :
    step s = .next (s.takeFault .outOfBounds s.pc 0#8) := by
  rw [step_enabled h, fetch_off hp]
  simp [raiseMissingByte, raise]

theorem step_invalid {s : State} (h : Enabled s) (hp : s.pc.toNat < 256) (ho : rowAt s = none) :
    step s = .next (s.takeFault .invalidOpcode s.pc (cellByte s s.pc.toNat)) := by
  rw [step_enabled h, fetch_invalid hp ho]
  rfl

theorem step_short {s : State} {o : Op} (h : Enabled s) (hp : s.pc.toNat < 256) (ho : rowAt s = some o)
    (hF : 256 ≤ s.pc.toNat + o.format.fetched) : step s = .next (s.takeFault .outOfBounds 256#9 0#8) := by
  rw [step_enabled h, fetch_short ho hp hF]
  have : s.pc + BitVec.ofNat 9 (256 - s.pc.toNat) = 256#9 := by
    apply BitVec.eq_of_toNat_eq
    rw [addr_add_toNat (by omega)]
    simp
    omega
  simp [raiseMissingByte, raise, this]

theorem step_row {s : State} {o : Op} (h : Enabled s) (ho : rowAt s = some o) (hF : s.pc.toNat + o.format.fetched < 256) :
    step s = .next (answer (instrAt o s) s) := by
  rw [step_enabled h, fetch_row ho hF]
  exact exec_eq _ _

/-- All that a step that answers a next state can have done. -/
theorem step_next_cases {s t : State} (h : step s = .next t) :
    Enabled s ∧
      ((256 ≤ s.pc.toNat ∧ t = s.takeFault .outOfBounds s.pc 0#8) ∨
        (s.pc.toNat < 256 ∧ rowAt s = none ∧ t = s.takeFault .invalidOpcode s.pc (cellByte s s.pc.toNat)) ∨
        (∃ o, s.pc.toNat < 256 ∧ rowAt s = some o ∧ 256 ≤ s.pc.toNat + o.format.fetched ∧
          t = s.takeFault .outOfBounds 256#9 0#8) ∨
        (∃ o, rowAt s = some o ∧ s.pc.toNat + o.format.fetched < 256 ∧ fetch s = .instr (instrAt o s) ∧
          t = answer (instrAt o s) s)) := by
  have he := enabled_of_step h
  refine ⟨he, ?_⟩
  rcases Nat.lt_or_ge s.pc.toNat 256 with hp | hp
  · cases ho : rowAt s with
    | none =>
      rw [step_invalid he hp ho] at h
      exact .inr (.inl ⟨hp, rfl, by cases h; rfl⟩)
    | some o =>
      rcases Nat.lt_or_ge (s.pc.toNat + o.format.fetched) 256 with hF | hF
      · rw [step_row he ho hF] at h
        exact .inr (.inr (.inr ⟨o, rfl, hF, fetch_row ho hF, by cases h; rfl⟩))
      · rw [step_short he hp ho hF] at h
        exact .inr (.inr (.inl ⟨o, hp, rfl, hF, by cases h; rfl⟩))
  · rw [step_off he hp] at h
    exact .inl ⟨hp, by cases h; rfl⟩

/-- The first bad register operand is one of the register operands, and is 8 or above. -/
theorem badOperand_some {i : Instr} {k : Nat} {v : Byte} (h : i.badOperand = some (k, v)) :
    8 ≤ v.toNat ∧ (k, v) ∈ i.regOperands := by
  refine ⟨?_, List.mem_of_find?_eq_some h⟩
  simpa using List.find?_some h

/-- A register operand stands at position 1 or 2, within the bytes fetched. -/
theorem regOperands_pos {i : Instr} {k : Nat} {v : Byte} (h : (k, v) ∈ i.regOperands) :
    (k = 1 ∨ k = 2) ∧ k ≤ i.fetched := by
  cases i <;>
    simp only [Instr.regOperands, List.mem_cons, List.not_mem_nil, or_false, Prod.mk.injEq] at h <;>
    simp only [Instr.fetched, Instr.op, Op.format, Format.fetched] <;>
    omega

theorem instrAt_op (o : Op) (s : State) : (instrAt o s).op = o := by cases o <;> rfl

end Sys2Proof.Machine
end

