-- ==== Sys2Proof/Tests/Slice0.lean ====
section
/-! SUPPORT. Tests: well-formedness, decoding of words written out from 30_encoding.md, single steps with the results of
95_test_vectors.md, and for each statement a state and operands that meet its hypotheses. -/

namespace Sys2Proof.Tests

open Sys2Proof.Machine Sys2Proof.Claims

/-! ## Helpers -/

/-- From reset: bytes at `a`, pc there, and some registers set. -/
def put (a : Addr) (bs : List Byte) (xs : List (RegIx × Byte)) : State :=
  xs.foldl (fun s p => s.setReg p.1 p.2) (storeBytes { State.reset with pc := a } a bs)

/-- With FL set. -/
def withFl (f : Byte) (s : State) : State := s.setFl f

/-- With ALU_DECODE_EXT on. -/
def withExt (s : State) : State := { s with params := { s.params with aluDecodeExt := true } }

/-- A part of the next state, if there is one. -/
def got {α : Type} (r : Result) (f : State → α) : Option α :=
  match r with
  | .next t => some (f t)
  | .fault _ => none
  | .refused _ => none

/-- The fault record of the next state, as the numbers of 95_test_vectors.md: (cause, fpc, faddr, fval), if it is Faulted. -/
def faultOf (r : Result) : Option (Nat × Nat × Nat × Nat) :=
  match r with
  | .next t =>
    if t.run = .faulted then some (t.fault.cause.code.toNat, t.fault.fpc.toNat, t.fault.faddr.toNat, t.fault.fval.toNat)
    else none
  | .fault _ => none
  | .refused _ => none

/-! ## Well-formedness: each register operand of each instruction, at 8 and above -/

theorem test_ill_formed_first_operand :
    [Instr.push 8#8, .pop 9#8, .prn 16#8, .ldi 8#8 0#8, .jmp 255#8, .jeq 8#8, .jne 128#8, .mul 8#8 0#8, .cmp 8#8 0#8,
      .add 8#8 0#8, .sub 8#8 0#8, .and 8#8 0#8, .inc 8#8, .dec 8#8].all (fun i => !i.WellFormed) = true := by decide

theorem test_ill_formed_second_operand :
    [Instr.mul 7#8 8#8, .cmp 0#8 200#8, .add 0#8 8#8, .sub 0#8 8#8, .and 0#8 8#8].all (fun i => !i.WellFormed) = true := by
  decide

theorem test_well_formed :
    [Instr.nop, .halt, .push 7#8, .ldi 7#8 255#8, .mul 7#8 7#8, .dec 0#8].all (fun i => i.WellFormed) = true := by decide

/-! ## Decoding: one word for each constructor, bit by bit from R76 and R77 -/

theorem test_decode_nop : decode false [0b00000000#8] = .instr .nop := by decide
theorem test_decode_halt : decode false [0b00000001#8] = .instr .halt := by decide
theorem test_decode_push : decode false [0b01000101#8, 0b00000101#8] = .instr (.push 5#8) := by decide
theorem test_decode_pop : decode false [0b01000110#8, 0b00000110#8] = .instr (.pop 6#8) := by decide
theorem test_decode_prn : decode false [0b01000111#8, 0b00000001#8] = .instr (.prn 1#8) := by decide
theorem test_decode_ldi : decode false [0b10000010#8, 0b00000011#8, 0b11111110#8] = .instr (.ldi 3#8 254#8) := by decide
theorem test_decode_jmp : decode false [0b01010100#8, 0b00000010#8] = .instr (.jmp 2#8) := by decide
theorem test_decode_jeq : decode false [0b01010101#8, 0b00000011#8] = .instr (.jeq 3#8) := by decide
theorem test_decode_jne : decode false [0b01010110#8, 0b00000100#8] = .instr (.jne 4#8) := by decide
theorem test_decode_mul : decode false [0b10100010#8, 0b00000001#8, 0b00000010#8] = .instr (.mul 1#8 2#8) := by decide
theorem test_decode_cmp : decode false [0b10100111#8, 0b00000110#8, 0b00000101#8] = .instr (.cmp 6#8 5#8) := by decide
theorem test_decode_add : decode true [0b10100000#8, 0b00000001#8, 0b00000010#8] = .instr (.add 1#8 2#8) := by decide
theorem test_decode_sub : decode true [0b10100001#8, 0b00000001#8, 0b00000010#8] = .instr (.sub 1#8 2#8) := by decide
theorem test_decode_and : decode true [0b10101000#8, 0b00000001#8, 0b00000010#8] = .instr (.and 1#8 2#8) := by decide
theorem test_decode_inc : decode true [0b01100101#8, 0b00000010#8, 0b11111111#8] = .instr (.inc 2#8) := by decide
theorem test_decode_dec : decode true [0b01100110#8, 0b00000011#8, 0b10000010#8] = .instr (.dec 3#8) := by decide

/-- A register operand of 8 or above still decodes: the meaning refuses it, not the decoder (R24, R80). -/
theorem test_decode_high_register : decode false [0b01000101#8, 0b11111111#8] = .instr (.push 255#8) := by decide

/-- R79: exactly the bytes outside the eleven (or, with the extension, sixteen) distinct values are invalid. -/
theorem test_invalid_bytes :
    (∀ (ext : Bool) (b : Byte), (Op.ofByte ext b).isNone = decide (b ∉ baseValues ++ if ext then extValues else [])) ∧
    baseValues.length = 11 ∧ extValues.length = 5 ∧ (baseValues ++ extValues).Nodup := by decide

/-- R75: no two rows share an opcode byte. -/
theorem test_rows_do_not_overlap : Op.all.Pairwise (fun a b => a.value ≠ b.value) := by decide

/-- R80 and R93: INC wants two operand bytes, PUSH one, LDI two. -/
theorem test_missing_bytes :
    decode true [0b01100101#8, 0b00000010#8] = .missing 2 ∧ decode false [0b01000101#8] = .missing 1 ∧
    decode false [0b10000010#8, 0#8] = .missing 2 ∧ decode false [] = .missing 0 := by decide

/-- The control word's L and F are those of the opcode table (R76, R77, R98). -/
theorem test_control_lengths :
    Op.all.all (fun o => (controlWord o).length == o.format.length && (controlWord o).fetched == o.format.fetched) = true := by
  decide

/-- R123 and R126: the decoder produces the codes 0 to 6 and no other, each for the ALU opcode of R98 that names it, and no code for a
handler. -/
theorem test_control_alu_codes :
    Op.all.filterMap (fun o => (controlWord o).aluOp.map fun a => (o, a.code)) =
      [(.mul, 3#3), (.cmp, 6#3), (.add, 0#3), (.sub, 1#3), (.and, 2#3), (.inc, 4#3), (.dec, 5#3)] ∧
    Op.all.all (fun o => (controlWord o).aluOp.isSome == ((controlWord o).cls == .alu)) = true := by decide

/-! ## The host's two functions -/

/-- The word of a row whose table gives 8 bits: the operand bytes are zeros. -/
theorem test_table_words :
    decodeTableWord 8 162 = some (.mul 0#8 0#8) ∧ decodeTableWord 24 0x0A01A2 = some (.mul 1#8 10#8) ∧
    decodeTableWord 8 101 = some (.inc 0#8) ∧ decodeTableWord 8 255 = none := by decide

/-- A base row and an extension row run as the first instruction after reset. -/
theorem test_fetch_word_runs :
    got (step (State.reset.withFetchWord 24 0x320082)) (fun t => (t.reg 0, t.pc)) = some (0x32#8, 3#9) ∧
    got (step (State.reset.withFetchWord 8 160)) (fun t => (t.run, t.pc)) = some (.running, 3#9) := by decide

/-! ## Steps, with the results of 95_test_vectors.md (the vector's id stands before each) -/

/-- V-SYS-1 and V-SYS-2. -/
theorem test_nop : got (step (put 7#9 [0#8] [])) (·.pc) = some 8#9 ∧ got (step (put 255#9 [0#8] [])) (·.pc) = some 256#9 := by
  decide

/-- V-SYS-3 and V-SYS-4. -/
theorem test_halt :
    got (step (put 255#9 [1#8] [])) (fun t => (t.run, t.pc)) = some (.halted, 255#9) ∧
    got (step (put 11#9 [1#8] [])) (fun t => (t.run, t.pc)) = some (.halted, 11#9) := by decide

/-- V-STK-1, V-STK-2, V-STK-4 and V-STK-5. -/
theorem test_push :
    got (step (put 0#9 [69#8, 0#8] [(0, 3#8)])) (fun t => (t.sp, cellByte t 0xF3, t.pc)) = some (0xF3#8, 3#8, 2#9) ∧
    got (step (put 0#9 [69#8, 7#8] [])) (fun t => (t.sp, cellByte t 0xF3)) = some (0xF3#8, 0xF3#8) ∧
    got (step (put 0#9 [69#8, 0#8] [(7, 1#8), (0, 0xAB#8)])) (fun t => (t.sp, cellByte t 0)) = some (0#8, 0xAB#8) ∧
    got (step (put 0#9 [69#8, 0#8] [(7, 0xFF#8), (0, 5#8)])) (fun t => (t.sp, cellByte t 0xFE)) = some (0xFE#8, 5#8) := by
  decide

/-- V-STK-3 and V-STK-6. -/
theorem test_push_faults :
    faultOf (step (put 0#9 [69#8, 0#8] [(7, 0#8)])) = some (4, 0, 0, 0) ∧
    faultOf (step (put 0#9 [69#8, 8#8] [(7, 0#8)])) = some (3, 0, 1, 8) := by decide

/-- V-STK-7, V-STK-10 and V-STK-11. -/
theorem test_pop :
    got (step { put 0#9 [70#8, 1#8] [(7, 0xF3#8)] with mem := [(0, 70#8), (1, 1#8), (0xF3, 3#8)] })
      (fun t => (t.reg 1, t.sp, t.pc, cellByte t 0xF3)) = some (3#8, 0xF4#8, 2#9, 3#8) ∧
    got (step { put 0#9 [70#8, 7#8] [(7, 0xF3#8)] with mem := [(0, 70#8), (1, 7#8), (0xF3, 0x10#8)] }) (·.sp) = some 0x11#8 ∧
    got (step (put 0#9 [70#8, 2#8] [(7, 0#8)])) (fun t => (t.reg 2, t.sp)) = some (70#8, 1#8) := by decide

/-- V-STK-8 and V-STK-9. -/
theorem test_pop_underflows :
    faultOf (step (put 0#9 [70#8, 0#8] [])) = some (5, 0, 0xF4, 0) ∧
    faultOf (step (put 0#9 [70#8, 0#8] [(7, 0xF5#8)])) = some (5, 0, 0xF5, 0) := by decide

/-- V-LDI-1, V-LDI-2 and V-LDI-4. -/
theorem test_ldi :
    got (step (put 0#9 [130#8, 0#8, 5#8] [])) (fun t => (t.reg 0, t.pc)) = some (5#8, 3#9) ∧
    got (step (put 0#9 [130#8, 7#8, 0#8] [])) (·.sp) = some 0#8 ∧
    got (step (put 253#9 [130#8, 0#8, 9#8] [])) (fun t => (t.reg 0, t.pc)) = some (9#8, 256#9) := by decide

/-- V-LDI-3 and V-LDI-5. -/
theorem test_ldi_faults :
    faultOf (step (put 0#9 [130#8, 8#8, 5#8] [])) = some (3, 0, 1, 8) ∧
    faultOf (step (put 254#9 [130#8, 0#8] [])) = some (2, 254, 256, 0) := by decide

/-- V-PRN-1, V-PRN-3 and V-PRN-4. -/
theorem test_prn :
    got (step (put 0#9 [71#8, 0#8] [(0, 50#8)])) (fun t => (t.out, t.pc)) = some ([50#8], 2#9) ∧
    got (step (put 0#9 [71#8, 7#8] [])) (·.out) = some [244#8] ∧
    faultOf (step (put 0#9 [71#8, 8#8] [])) = some (3, 0, 1, 8) := by decide

/-- V-BR-1 and V-BR-10. -/
theorem test_jmp :
    got (step (put 0#9 [84#8, 2#8] [(2, 0x20#8)])) (·.pc) = some 0x20#9 ∧
    faultOf (step (put 255#9 [84#8] [])) = some (2, 255, 256, 0) := by decide

/-- V-BR-2, V-BR-3, V-BR-4 and V-BR-9. -/
theorem test_jeq :
    got (step (withFl 1#8 (put 0#9 [85#8, 3#8] [(3, 12#8)]))) (·.pc) = some 12#9 ∧
    got (step (withFl 2#8 (put 0#9 [85#8, 3#8] [(3, 12#8)]))) (·.pc) = some 2#9 ∧
    got (step (put 0#9 [85#8, 3#8] [(3, 12#8)])) (·.pc) = some 2#9 ∧
    got (step (withFl 4#8 (put 254#9 [85#8, 0#8] []))) (·.pc) = some 256#9 := by decide

/-- V-BR-8. -/
theorem test_jeq_checks_when_not_taken : faultOf (step (put 0#9 [85#8, 9#8] [])) = some (3, 0, 1, 9) := by decide

/-- V-BR-5, V-BR-6 and V-BR-7. -/
theorem test_jne :
    got (step (put 0#9 [86#8, 3#8] [(3, 12#8)])) (·.pc) = some 12#9 ∧
    got (step (withFl 1#8 (put 0#9 [86#8, 3#8] [(3, 12#8)]))) (·.pc) = some 2#9 ∧
    got (step (withFl 4#8 (put 0#9 [86#8, 3#8] [(3, 12#8)]))) (·.pc) = some 12#9 := by decide

/-- V-MUL-1, V-MUL-3, V-MUL-5 and V-MUL-6. -/
theorem test_mul :
    got (step (put 0#9 [162#8, 0#8, 1#8] [(0, 5#8), (1, 10#8)])) (fun t => (t.reg 0, t.pc, t.fl)) = some (50#8, 3#9, 0#8) ∧
    got (step (put 0#9 [162#8, 0#8, 1#8] [(0, 255#8), (1, 255#8)])) (·.reg 0) = some 1#8 ∧
    got (step (put 0#9 [162#8, 2#8, 2#8] [(2, 20#8)])) (·.reg 2) = some 144#8 ∧
    got (step (put 0#9 [162#8, 7#8, 0#8] [(0, 2#8)])) (·.reg 7) = some 232#8 := by decide

/-- V-MUL-8 and V-MUL-9. -/
theorem test_mul_faults :
    faultOf (step (put 254#9 [162#8, 0#8] [])) = some (2, 254, 256, 0) ∧
    faultOf (step (put 0#9 [162#8, 8#8, 9#8] [])) = some (3, 0, 1, 8) := by decide

/-- V-CMP-1, V-CMP-2, V-CMP-4, V-CMP-5 and V-CMP-6. -/
theorem test_cmp :
    got (step (put 0#9 [167#8, 0#8, 1#8] [(0, 5#8), (1, 10#8)])) (fun t => (t.fl, t.pc)) = some (4#8, 3#9) ∧
    got (step (put 0#9 [167#8, 0#8, 1#8] [(0, 10#8), (1, 5#8)])) (·.fl) = some 2#8 ∧
    got (step (put 0#9 [167#8, 0#8, 1#8] [(1, 255#8)])) (·.fl) = some 4#8 ∧
    got (step (put 0#9 [167#8, 0#8, 1#8] [(0, 128#8), (1, 127#8)])) (·.fl) = some 2#8 ∧
    got (step (withFl 4#8 (put 0#9 [167#8, 3#8, 3#8] [(3, 9#8)]))) (·.fl) = some 1#8 := by decide

/-- V-CMP-7. -/
theorem test_cmp_second_operand : faultOf (step (put 0#9 [167#8, 0#8, 200#8] [])) = some (3, 0, 2, 200) := by decide

/-- V-EXT-1 and V-EXT-2. -/
theorem test_add :
    got (step (withExt (put 0#9 [160#8, 0#8, 1#8] [(0, 200#8), (1, 100#8)]))) (fun t => (t.reg 0, t.pc)) = some (44#8, 3#9) ∧
    got (step (withExt (put 0#9 [160#8, 0#8, 1#8] [(0, 255#8), (1, 1#8)]))) (·.reg 0) = some 0#8 := by decide

/-- V-EXT-10. -/
theorem test_add_without_extension : faultOf (step (put 0#9 [160#8, 0#8, 1#8] [])) = some (1, 0, 0, 160) := by decide

/-- V-EXT-3 and V-EXT-4. -/
theorem test_sub :
    got (step (withExt (put 0#9 [161#8, 0#8, 1#8] [(0, 5#8), (1, 10#8)]))) (·.reg 0) = some 251#8 ∧
    got (step (withExt (put 0#9 [161#8, 0#8, 1#8] [(1, 1#8)]))) (·.reg 0) = some 255#8 := by decide

/-- V-EXT-5. -/
theorem test_and :
    got (step (withExt (put 0#9 [168#8, 0#8, 1#8] [(0, 0xF0#8), (1, 0x3C#8)]))) (·.reg 0) = some 0x30#8 := by decide

/-- V-EXT-6, V-EXT-8 and V-EXT-9. -/
theorem test_inc :
    got (step (withExt (put 0#9 [101#8, 2#8] [(2, 255#8)]))) (fun t => (t.reg 2, t.pc)) = some (0#8, 2#9) ∧
    got (step (withExt (put 0#9 [101#8, 0#8, 200#8] [(0, 4#8)]))) (fun t => (t.reg 0, t.pc)) = some (5#8, 2#9) ∧
    faultOf (step (withExt (put 254#9 [101#8, 0#8] []))) = some (2, 254, 256, 0) := by decide

/-- V-EXT-7. -/
theorem test_dec :
    got (step (withExt (put 0#9 [102#8, 3#8, 130#8] []))) (fun t => (t.reg 3, t.pc)) = some (255#8, 2#9) := by decide

/-- V-DEC-1, V-DEC-2, V-DEC-3, V-DEC-4 and V-MEM-1. -/
theorem test_fetch_faults :
    faultOf (step (put 0#9 [255#8] [])) = some (1, 0, 0, 255) ∧ faultOf (step (put 0#9 [128#8] [])) = some (1, 0, 0, 128) ∧
    faultOf (step (put 0#9 [80#8] [])) = some (1, 0, 0, 80) ∧ faultOf (step (put 0#9 [2#8] [])) = some (1, 0, 0, 2) ∧
    faultOf (step (put 256#9 [] [])) = some (2, 256, 256, 0) := by decide

/-- R233: an image lands at address 0 in order. -/
theorem test_launch :
    got (launch [130#8, 0#8, 5#8] State.reset) (fun t => (t.mem, t.pc, t.run)) =
      some ([(0, 130#8), (2, 5#8)], 0#9, .running) := by decide

/-! ## Witnesses: for each statement, concrete data that meet its hypotheses, each clause at a boundary -/

/-- The hypotheses of `FetchedAs` for an opcode with F operand bytes: pc at 256; the opcode so high that operand byte F stands at 256;
and so high that it just fits. -/
def fetchWitness (opc : Byte) (F : Nat) (ext : Bool) : Bool :=
  let at_ (n : Nat) : State := { put (BitVec.ofNat 9 n) [opc] [] with params := { Config.default with aluDecodeExt := ext } }
  decide (Enabled (at_ 256)) && decide (256 ≤ (at_ 256).pc.toNat) &&
  (F == 0 || (decide (Enabled (at_ (256 - F))) && decide (cellByte (at_ (256 - F)) (256 - F) = opc) &&
    decide ((at_ (256 - F)).pc.toNat + F = 256) && decide ((at_ (256 - F)).pc.toNat < 256))) &&
  decide (Enabled (at_ (255 - F))) && decide (cellByte (at_ (255 - F)) (255 - F) = opc) &&
  decide ((at_ (255 - F)).pc.toNat + F < 256) && ((at_ 0).params.aluDecodeExt == ext)

/-- Operands that meet the register hypotheses: 7 selects R7, 8 selects none, and SP at each bound. -/
theorem witness_operands :
    (7#8 : Byte).toNat = (7 : RegIx).val ∧ (0#8 : Byte).toNat = (0 : RegIx).val ∧ 8 ≤ (8#8 : Byte).toNat ∧ (7#8 : Byte).toNat < 8 := by
  decide

theorem witness_NopOnlyAdvancesPc :
    fetchWitness 0#8 0 false = true ∧ Enabled (put 255#9 [0#8] []) ∧ (put 255#9 [0#8] []).pc = 255#9 ∧
    cellByte (put 255#9 [0#8] []) 255 = 0#8 := by decide

theorem witness_HaltStopsTheMachine : fetchWitness 1#8 0 false = true ∧ State.reset.rst = false := by decide

theorem witness_PushStoresAtTheDecrementedSp :
    fetchWitness 69#8 1 false = true ∧ (put 0#9 [] [(7, 0#8)]).sp.toNat = 0 ∧ (put 0#9 [] [(7, 1#8)]).sp.toNat ≠ 0 ∧
    Memory.wf (put 0#9 [69#8] [(7, 1#8)]).mem = true := by decide

theorem witness_PopLoadsThenIncrementsSp :
    fetchWitness 70#8 1 false = true ∧ 0xF4 ≤ (put 0#9 [] [(7, 0xF4#8)]).sp.toNat ∧
    (put 0#9 [] [(7, 0xF3#8)]).sp.toNat < 0xF4 ∧ (0 : RegIx) ≠ 7 := by decide

theorem witness_PrnEmitsTheRegister : fetchWitness 71#8 1 false = true := by decide
theorem witness_LdiLoadsTheLiteral : fetchWitness 130#8 2 false = true := by decide

theorem witness_JmpLoadsPcFromTheRegister :
    fetchWitness 84#8 1 false = true ∧ (got (exec (.jmp 7#8) State.reset) (·.pc)).isSome = true := by decide

theorem witness_JeqBranchesWhenEqual :
    fetchWitness 85#8 1 false = true ∧ (withFl 1#8 State.reset).fl.getLsbD 0 = true ∧
    ¬ (withFl 6#8 State.reset).fl.getLsbD 0 = true := by decide

theorem witness_JneBranchesWhenNotEqual :
    fetchWitness 86#8 1 false = true ∧ (withFl 6#8 State.reset).fl.getLsbD 0 = false ∧
    ¬ (withFl 1#8 State.reset).fl.getLsbD 0 = false := by decide

theorem witness_MulKeepsTheLowByteOfTheProduct : fetchWitness 162#8 2 false = true := by decide

/-- The three cases of CMP's flag value are an if and else chain. -/
theorem witness_CmpSetsExactlyOneFlag :
    fetchWitness 167#8 2 false = true ∧ (State.reset.reg 0).toNat = (State.reset.reg 1).toNat ∧
    (State.reset.reg 7).toNat > (State.reset.reg 0).toNat := by decide

theorem witness_AddWrapsModulo256 : fetchWitness 160#8 2 true = true := by decide
theorem witness_SubWrapsModulo256 : fetchWitness 161#8 2 true = true := by decide
theorem witness_AndIsBitByBit :
    fetchWitness 168#8 2 true = true ∧ (got (exec (.and 7#8 0#8) State.reset) (·.pc)).isSome = true := by decide
theorem witness_IncWrapsModulo256 : fetchWitness 101#8 2 true = true := by decide
theorem witness_DecWrapsModulo256 : fetchWitness 102#8 2 true = true := by decide

theorem witness_StepRunsTheDecodedInstruction :
    Enabled State.reset ∧ fetch State.reset = .instr .nop ∧ fetch (put 0#9 [2#8] []) = .invalidOpcode 2#8 ∧
    fetch (put 255#9 [69#8] []) = .missing 1 ∧ fetch (put 256#9 [] []) = .missing 0 := by decide

theorem witness_UnknownByteRaisesInvalidOpcode :
    Enabled (put 255#9 [2#8] []) ∧ (put 255#9 [2#8] []).pc.toNat < 256 ∧ 2#8 ∉ validValues (put 255#9 [2#8] []) ∧
    160#8 ∉ validValues State.reset ∧ 160#8 ∈ validValues (withExt State.reset) := by decide

theorem witness_OutOfBoundsExactlyBeyondMemory :
    Enabled (put 256#9 [] []) ∧ 256 ≤ (put 256#9 [] []).pc.toNat ∧ Enabled (put 255#9 [69#8] []) ∧
    cellByte (put 255#9 [69#8] []) 255 ∈ validValues (put 255#9 [69#8] []) ∧ 256 ≤ 255 + fetchedFor 69#8 ∧
    State.reset.run ≠ .faulted ∧ got (exec (.push 8#8) State.reset) (·.run) = some .faulted := by decide

theorem witness_BadRegisterIndexRaisesInvalidRegister :
    (Instr.mul 8#8 9#8).badOperand = some (1, 8#8) ∧ (Instr.mul 7#8 8#8).badOperand = some (2, 8#8) ∧
    (Instr.pop 7#8).WellFormed = true ∧ got (exec (.pop 7#8) State.reset) (·.run) = some .faulted := by decide

theorem witness_StepTakesTheFirstFaultInOrder :
    firstFault State.reset = none ∧ firstFault (put 256#9 [] []) = some ⟨.outOfBounds, 256#9, 256#9, 0#8⟩ ∧
    firstFault (put 0#9 [69#8, 8#8] [(7, 0#8)]) = some ⟨.invalidRegister, 0#9, 1#9, 8#8⟩ ∧
    firstFault (put 0#9 [69#8, 7#8] [(7, 0#8)]) = some ⟨.stackOverflow, 0#9, 0#9, 0#8⟩ := by decide

theorem witness_FaultsArePrecise : got (step (put 0#9 [70#8, 0#8] [])) (·.run) = some .faulted := by decide

theorem witness_StepExistsExactlyWhenEnabled :
    (assertReset State.reset).rst = true ∧ State.reset.halt.rst = false ∧ State.reset.halt.run = .halted ∧
    (State.reset.takeFault .outOfBounds 256#9 0#8).run = .faulted := by decide

theorem witness_EveryInstructionCompletesOrFaults :
    (Instr.push 7#8).WellFormed = true ∧ stackFaultOf (.push 7#8) State.reset = none ∧
    (Instr.push 8#8).WellFormed = false ∧ stackFaultOf (.pop 7#8) State.reset ≠ none := by decide

/-- The reset state meets the invariant, so it is a state the invariant's statements are about. -/
theorem witness_invariant_at_reset : MachineInv State.reset :=
  ⟨by decide, by decide, by decide, by decide, fun h => absurd h (by decide)⟩

/-- FaultRecordIsWrittenOnlyOnEntry and EveryStepKeepsTheInvariant: reset takes a step. -/
theorem witness_invariant_step : (got (step State.reset) (·.pc)).isSome = true := by decide

theorem witness_LaunchLoadsTheImage :
    (List.replicate 256 (0#8 : Byte)).length ≤ 256 ∧ 256 < (List.replicate 257 (0#8 : Byte)).length := by
  simp only [List.length_replicate, Nat.le_refl, Nat.lt_succ_self, and_self]

theorem witness_LoadPortWorksOnlyInReset :
    State.reset.rst = false ∧ (assertReset State.reset).rst = true ∧ Memory.wf (assertReset State.reset).mem = true := by decide

theorem witness_ObservationExistsExactlyAtTheEnd : State.reset.run = .running ∧ State.reset.halt.run ≠ .running := by decide

theorem witness_OnlyCmpWritesFl :
    got (exec .nop State.reset) (·.fl) = some 0#8 ∧ (∀ ra rb, Instr.nop ≠ .cmp ra rb) ∧
    Instr.mul 7#8 8#8 ∈ [Instr.mul 7#8 8#8, .add 7#8 8#8, .sub 7#8 8#8, .and 7#8 8#8, .inc 7#8, .dec 7#8] :=
  ⟨by decide, fun _ _ => Instr.noConfusion, by decide⟩

theorem witness_OnlyTheEqualFlagIsRead : (0b11111110#8 : Byte).getLsbD 0 = State.reset.fl.getLsbD 0 := by decide

theorem witness_OnlyPushWritesMemory :
    got (step (put 0#9 [69#8, 0#8] [(0, 3#8)])) (fun t => decide (cellByte t 0xF3 ≠ cellByte (put 0#9 [69#8, 0#8] [(0, 3#8)]) 0xF3)) =
      some true := by decide

theorem witness_RegistersWrittenAreThoseOfTheTable :
    (got (exec (.pop 1#8) (put 0#9 [] [(7, 0xF3#8)])) (·.reg 1)).isSome = true ∧ (0 : RegIx) ∉ writtenRegs (.pop 1#8) := by decide

theorem witness_OnlyPrnWritesTheOutput : got (step (put 0#9 [71#8, 7#8] [])) (·.out) = some [0xF4#8] := by decide

theorem witness_EarlierOutputNeverMatters : (got (step (put 0#9 [71#8, 7#8] [])) (·.pc)).isSome = true := by decide

theorem witness_PcMovesInTheStatedWays :
    fetch (put 253#9 [130#8, 0#8, 9#8] []) = .instr (.ldi 0#8 9#8) ∧
    got (step (put 253#9 [130#8, 0#8, 9#8] [])) (·.run) = some .running ∧
    jumpsTo (put 0#9 [84#8, 2#8] []) (.jmp 2#8) = some 2 ∧ jumpsTo State.reset (.jeq 2#8) = none ∧
    got (step (put 0#9 [1#8] [])) (·.run) = some .halted := by decide

theorem witness_WriteThenReadGivesTheByte : Memory.wf State.reset.mem = true ∧ (0#9).toNat ≠ (255#8).toNat := by decide

theorem witness_PushThenPopRoundTrips :
    Memory.wf (put 0#9 [] [(7, 1#8)]).mem = true ∧ 1 ≤ (put 0#9 [] [(7, 1#8)]).sp.toNat ∧
    (put 0#9 [] [(7, 0xF4#8)]).sp.toNat ≤ 0xF4 ∧ (0 : RegIx) ≠ 7 := by decide

theorem witness_FetchSeesThePushedByte :
    Memory.wf State.reset.mem = true ∧ State.reset.sp.toNat ≠ 0 ∧ (got (exec (.push 7#8) State.reset) (·.pc)).isSome = true ∧
    (0xF1#9).toNat + 2 = State.reset.pushAddr.toNat ∧ (0xF3#9).toNat + 0 = State.reset.pushAddr.toNat := by decide

theorem witness_StackHoldsSpPushes :
    (∀ b ∈ [(7#8 : Byte)], b.toNat < 8) ∧ State.reset.run ≠ .faulted ∧
    [(7#8 : Byte)].length ≤ (put 0#9 [] [(7, 1#8)]).sp.toNat ∧ [(7#8 : Byte)].length = (put 0#9 [] [(7, 0#8)]).sp.toNat + 1 := by
  decide

theorem witness_DecodeOfEncodeIsTheInstruction :
    (Instr.ldi 7#8 255#8).fetched + 1 = (Instr.ldi 7#8 255#8).length ∧ (Instr.cmp 255#8 255#8).op.isExt = false := by decide

theorem witness_EncodeOfDecodeIsWhatWasRead : decode true [0b01100110#8, 3#8, 130#8] = .instr (.dec 3#8) := by decide

theorem witness_ExtensionChangesOnlyItsFiveOpcodes : cellByte State.reset State.reset.pc.toNat ∉ extValues := by decide

end Sys2Proof.Tests
end

section
/-! PROOFS. 20_memory.md: what a read answers after a write (R53, R54). -/

namespace Sys2Proof.Machine

theorem State.readAddr_storeByte_same {s : State} (h : Memory.wf s.mem = true) (c v : Byte) :
    (s.storeByte c v).readAddr (zext9 c) = some v := by
  simp [State.readAddr, State.byteAt_storeByte h]

/-- A write leaves a read of any other address as it was, also where the address decoder selects no cell. -/
theorem State.readAddr_storeByte_ne (s : State) {a : Addr} {c : Byte} (h : a.toNat ≠ c.toNat) (v : Byte) :
    (s.storeByte c v).readAddr a = s.readAddr a := by
  rcases Nat.lt_or_ge a.toNat 256 with hlt | hge
  · rw [State.readAddr_below hlt, State.readAddr_below hlt]
    exact congrArg some (Memory.read_write_ne h v s.mem)
  · rw [State.readAddr_above hge, State.readAddr_above hge]

end Sys2Proof.Machine

namespace Sys2Proof.Claims

open Sys2Proof.Machine

/-- Settles O41: the byte read back is `trunc8 v`, and the canonical form is kept by `State.storeByte_wf`. -/
theorem writeThenReadGivesTheByte : Obligations.WriteThenReadGivesTheByte := by
  intro s c v hwf
  exact ⟨⟨trunc8 v, State.readAddr_storeByte_same hwf c _, trunc8_toNat v⟩,
    fun _ ha => State.readAddr_storeByte_ne s ha _, rfl, State.storeByte_wf hwf c _⟩

end Sys2Proof.Claims
end

section
/-! PROOFS. 40_execution_cycle.md R93 and 60_exceptions.md section 1: the opcode values as rows of the table, what the answer of a
meaning can be, and where OutOfBounds is raised. -/

namespace Sys2Proof.Machine

open Sys2Proof.Claims

/-! ### The opcode values are the rows' values (R75 to R77, R79) -/

theorem Op.mem_all (o : Op) : o ∈ Op.all := by cases o <;> decide

theorem baseValues_eq_map : baseValues = (Op.all.filter fun o => !o.isExt).map Op.value := rfl

theorem extValues_eq_map : extValues = (Op.all.filter fun o => o.isExt).map Op.value := rfl

/-- A byte is an opcode value of the configuration exactly when some row that the configuration decodes has it. -/
theorem mem_validValues_iff_row (s : State) (b : Byte) :
    b ∈ validValues s ↔ ∃ o : Op, o.value = b ∧ (s.params.aluDecodeExt = true ∨ o.isExt = false) := by
  simp only [validValues, baseValues_eq_map, extValues_eq_map, List.mem_append, List.mem_map, List.mem_filter, Op.mem_all,
    true_and, Bool.not_eq_true']
  cases s.params.aluDecodeExt with
  | false => simp [and_comm]
  | true => simp [Op.mem_all, ← exists_or, ← or_and_right]

/-- The decoder finds a row exactly for the opcode values of the configuration. -/
theorem mem_validValues_iff_ofByte (s : State) (b : Byte) :
    b ∈ validValues s ↔ ∃ o, Op.ofByte s.params.aluDecodeExt b = some o := by
  rw [mem_validValues_iff_row, ← Option.isSome_iff_exists, Op.ofByte, List.find?_isSome]
  simp [Op.mem_all]

/-- The column F of R76 and R77, by opcode value and by row. -/
theorem fetchedFor_value (o : Op) : fetchedFor o.value = o.format.fetched := by cases o <;> decide

theorem fetchedFor_of_rowAt {s : State} {o : Op} (h : rowAt s = some o) :
    fetchedFor (cellByte s s.pc.toNat) = o.format.fetched := by
  rw [← Op.ofByte_value _ _ _ h, fetchedFor_value]

theorem mem_validValues_iff_rowAt (s : State) :
    cellByte s s.pc.toNat ∈ validValues s ↔ ∃ o, rowAt s = some o := mem_validValues_iff_ofByte s _

/-! ### What a meaning answers -/

/-- The three ways a meaning ends: a bad register operand, a stack fault, or completion. -/
theorem answer_cases (i : Instr) (s : State) :
    (∃ k b, i.badOperand = some (k, b) ∧ answer i s = s.takeFault .invalidRegister (s.pc + BitVec.ofNat 9 k) b) ∨
      (∃ f, i.badOperand = none ∧ stackFaultOf i s = some f ∧ answer i s = s.takeFault f.cause f.faddr f.fval) ∨
      (i.badOperand = none ∧ stackFaultOf i s = none ∧ answer i s = completed i s) := by
  cases hb : i.badOperand with
  | some p => exact .inl ⟨p.1, p.2, rfl, answer_bad hb⟩
  | none =>
    cases hs : stackFaultOf i s with
    | some f => exact .inr (.inl ⟨f, rfl, rfl, by simp [answer, hb, hs]⟩)
    | none => exact .inr (.inr ⟨rfl, rfl, answer_good hb hs⟩)

theorem stackFaultOf_cause {i : Instr} {s : State} {f : FaultRecord} (h : stackFaultOf i s = some f) :
    f.cause = .stackOverflow ∨ f.cause = .stackUnderflow := by
  cases i with
  | push ra =>
    obtain ⟨-, rfl⟩ : s.sp.toNat = 0 ∧ _ = f := by simpa [stackFaultOf] using h
    exact .inl rfl
  | pop ra =>
    obtain ⟨-, rfl⟩ : 0xF4 ≤ s.sp.toNat ∧ _ = f := by simpa [stackFaultOf] using h
    exact .inr rfl
  | _ => cases h

/-- Completion leaves the run state as it was, but for HALT. -/
theorem completed_run (i : Instr) (s : State) :
    (completed i s).run = if i = .halt then .halted else s.run := by
  cases i with
  | jeq ra => cases h : s.flagEqual <;> simp [completed, h]
  | jne ra => cases h : s.flagEqual <;> simp [completed, h]
  | _ => rfl

theorem completed_not_faulted {i : Instr} {s : State} (h : s.run ≠ .faulted) : (completed i s).run ≠ .faulted := by
  rw [completed_run]
  split_ifs
  · decide
  · exact h

/-- No meaning raises OutOfBounds: its faults are those of the register check and of the stack bounds. -/
theorem answer_cause_ne_outOfBounds {i : Instr} {s : State} (h : s.run ≠ .faulted) (hf : (answer i s).run = .faulted) :
    (answer i s).fault.cause ≠ .outOfBounds := by
  rcases answer_cases i s with ⟨k, b, -, ha⟩ | ⟨f, -, hs, ha⟩ | ⟨-, -, ha⟩
  · simp [ha]
  · rcases stackFaultOf_cause hs with hc | hc <;> simp [ha, hc]
  · exact absurd (ha ▸ hf) (completed_not_faulted h)

/-! ### Where a step raises OutOfBounds -/

theorem step_faults_off {s : State} (h : Enabled s) (hp : 256 ≤ s.pc.toNat) :
    Faults s .outOfBounds s.pc.toNat 0#8 (step s) := by
  rw [step_off h hp, Faults, BitVec.ofNat_toNat, BitVec.setWidth_eq]
  rfl

theorem step_faults_short {s : State} (h : Enabled s) (hp : s.pc.toNat < 256) (hv : cellByte s s.pc.toNat ∈ validValues s)
    (hF : 256 ≤ s.pc.toNat + fetchedFor (cellByte s s.pc.toNat)) : Faults s .outOfBounds 256 0#8 (step s) := by
  obtain ⟨o, ho⟩ := (mem_validValues_iff_rowAt s).1 hv
  rw [fetchedFor_of_rowAt ho] at hF
  exact step_short h hp ho hF

/-- A step that ends with the cause OutOfBounds met the end of memory in its fetch. -/
theorem fetch_beyond_of_step_outOfBounds {s t : State} (h : step s = .next t) (hr : t.run = .faulted)
    (hc : t.fault.cause = .outOfBounds) :
    256 ≤ s.pc.toNat ∨ (s.pc.toNat < 256 ∧ cellByte s s.pc.toNat ∈ validValues s ∧
      256 ≤ s.pc.toNat + fetchedFor (cellByte s s.pc.toNat)) := by
  obtain ⟨he, ⟨hp, -⟩ | ⟨-, -, rfl⟩ | ⟨o, hp, ho, hF, -⟩ | ⟨o, -, -, -, rfl⟩⟩ := step_next_cases h
  · exact .inl hp
  · simp at hc
  · exact .inr ⟨hp, (mem_validValues_iff_rowAt s).2 ⟨o, ho⟩, by rwa [fetchedFor_of_rowAt ho]⟩
  · exact absurd hc (answer_cause_ne_outOfBounds (by simp [he.1]) hr)

end Sys2Proof.Machine

namespace Sys2Proof.Claims

open Sys2Proof.Machine

theorem Faults.next {s : State} {c : FaultCause} {a : Nat} {v : Byte} {r : Result} (h : Faults s c a v r) :
    ∃ t, r = .next t ∧ t.run = .faulted ∧ t.fault.cause = c := ⟨_, h, rfl, rfl⟩

/-- Settles O19: the fetch raises OutOfBounds where an address reaches 256, and no other case of `step_next_cases` does. -/
theorem outOfBoundsExactlyBeyondMemory : Obligations.OutOfBoundsExactlyBeyondMemory := by
  refine ⟨cellOf_eq_none_iff, fun s he => ⟨?_, ?_⟩, fun _ => step_faults_off, fun _ => step_faults_short, ?_⟩
  · rintro ⟨t, h, hr, hc⟩
    exact fetch_beyond_of_step_outOfBounds h hr hc
  · rintro (hp | ⟨hp, hv, hF⟩)
    · exact (step_faults_off he hp).next
    · exact (step_faults_short he hp hv hF).next
  · intro i s t hs h hr
    obtain rfl : answer i s = t := by simpa [exec_eq] using h
    exact answer_cause_ne_outOfBounds hs hr

end Sys2Proof.Claims
end

section
/-! PROOFS. 40_execution_cycle.md R91 to R94: how the row of an opcode is fetched, and what a bad register operand answers; said
once for every row and every instruction. -/

namespace Sys2Proof.Machine

/-- The decoder finds a row by its own opcode value, a row of R77 only under the extension (R12). -/
theorem Op.ofByte_value_self (o : Op) {ext : Bool} (h : o.isExt = true → ext = true) : Op.ofByte ext o.value = some o := by
  revert h
  cases ext <;> cases o <;> decide

theorem rowAt_of_value {s : State} {o : Op} (h : cellByte s s.pc.toNat = o.value)
    (hx : o.isExt = true → s.params.aluDecodeExt = true) : rowAt s = some o := by
  rw [rowAt, h, Op.ofByte_value_self o hx]

end Sys2Proof.Machine

namespace Sys2Proof.Claims

open Sys2Proof.Machine

/-- Every row is fetched in the way of R91 to R93. -/
theorem fetchedAs_row (o : Op) {ext : Bool} {i : Byte → Byte → Instr} (hx : o.isExt = true → ext = true)
    (hi : ∀ s, instrAt o s = i (cellByte s (s.pc.toNat + 1)) (cellByte s (s.pc.toNat + 2))) (s : State) :
    FetchedAs o.value ext o.format.fetched i s := by
  refine fun he hs => ⟨step_faults_off he, fun hp hc => ?_⟩
  have ho : rowAt s = some o := rowAt_of_value hc fun h => hs (hx h)
  constructor
  · intro k _ hk h256
    exact step_short he hp ho (by omega)
  · intro hF
    rw [step_row he ho hF, ← exec_eq, hi]

theorem exec_badOperand {i : Instr} {k : Nat} {b : Byte} (h : i.badOperand = some (k, b)) (s : State) :
    Faults s .invalidRegister (s.pc.toNat + k) b (exec i s) := by
  rw [exec_eq, answer_bad h, Faults, BitVec.ofNat_add, BitVec.ofNat_toNat, BitVec.setWidth_eq]
  rfl

theorem checksTwo_of_regOperands {mk : Byte → Byte → Instr} (h : ∀ ra rb, (mk ra rb).regOperands = [(1, ra), (2, rb)])
    (s : State) : ChecksTwo mk s := by
  constructor
  · intro ra rb ha
    exact exec_badOperand (by rw [badOperand_two (h ra rb), if_pos ha]) s
  · intro ra rb ha hb
    exact exec_badOperand (by rw [badOperand_two (h ra rb), if_neg (by omega), if_pos hb]) s

end Sys2Proof.Claims
end

section
/-! PROOFS. 41_alu.md: the ALU instructions that write a register, CMP (R121), and who touches FL (R125). -/

namespace Sys2Proof.Machine

open Sys2Proof.Claims

/-! ### What CMP writes to FL (R121) -/

/-- The flag byte of the comparison: one of bits 0 to 2, and bits 7:3 are 0. -/
theorem cmpFlags_eq (a b : Byte) :
    cmpFlags a b = if a.toNat = b.toNat then 0b00000001#8 else if a.toNat > b.toNat then 0b00000010#8 else 0b00000100#8 := by
  rw [cmpFlags, cmpFlg]
  split_ifs <;> rfl

/-! ### Who writes FL, and who reads it (R125) -/

theorem completed_fl {i : Instr} (h : ∀ ra rb, i ≠ .cmp ra rb) (s : State) : (completed i s).fl = s.fl := by
  cases i with
  | cmp ra rb => exact absurd rfl (h ra rb)
  | jeq ra | jne ra => cases hf : s.flagEqual <;> simp [completed, hf]
  | _ => rfl

theorem answer_fl {i : Instr} (h : ∀ ra rb, i ≠ .cmp ra rb) (s : State) : (answer i s).fl = s.fl := by
  rcases answer_cases i s with ⟨k, b, -, ha⟩ | ⟨f, -, -, ha⟩ | ⟨-, -, ha⟩
  · rw [ha, State.takeFault_fl]
  · rw [ha, State.takeFault_fl]
  · rw [ha, completed_fl h]

/-- The register check does not read FL: a meaning over it ignores FL where its continuation does. -/
theorem withReg_setFl {k : Nat} {b fl : Byte} {s : State} {g g' : RegIx → Result}
    (h : ∀ r, g' r = mapNext (fun t => t.setFl fl) (g r)) :
    withReg k b (s.setFl fl) g' = mapNext (fun t => t.setFl fl) (withReg k b s g) := by
  rcases Nat.lt_or_ge b.toNat 8 with hb | hb
  · rw [withReg_legal (pick_val hb), withReg_legal (pick_val hb), h]
  · rw [withReg_illegal hb, withReg_illegal hb]
    rfl

theorem aluTwo_setFl (op : AluOp) (ra rb fl : Byte) (s : State) :
    aluTwo op ra rb (s.setFl fl) = mapNext (fun t => t.setFl fl) (aluTwo op ra rb s) :=
  withReg_setFl fun _ => withReg_setFl fun _ => rfl

theorem aluOne_setFl (op : AluOp) (ra fl : Byte) (s : State) :
    aluOne op ra (s.setFl fl) = mapNext (fun t => t.setFl fl) (aluOne op ra s) :=
  withReg_setFl fun _ => rfl

end Sys2Proof.Machine

namespace Sys2Proof.Claims

open Sys2Proof.Machine

/-- An instruction of format RR that runs the ALU writes the ALU's result, by the arithmetic of its operation. -/
theorem writesTwo_of_aluTwo {mk : Byte → Byte → Instr} {op : AluOp} {f : Nat → Nat → Nat}
    (hmk : ∀ ra rb s, exec (mk ra rb) s = aluTwo op ra rb s)
    (hf : ∀ x y, (op.res x y).toNat = f x.toNat y.toNat % 256) (s : State) : WritesTwo mk f s := by
  intro ra rb a b ha hb
  refine ⟨_, (hmk ra rb s).trans (aluTwo_legal op ha hb), ?_, rfl, ?_, rfl, fun _ => rfl, rfl, rfl, rfl, rfl, rfl⟩
  · rw [State.reg_advance, State.reg_aluInto, if_pos rfl, hf]
  · intro q hq
    rw [State.reg_advance, State.reg_aluInto, if_neg fun h => hq (List.mem_singleton.2 h.symm)]

/-- Settles O10: the ALU's product is `trunc8` of the exact product. -/
theorem mulKeepsTheLowByteOfTheProduct : Obligations.MulKeepsTheLowByteOfTheProduct :=
  ⟨fetchedAs_row .mul nofun fun _ => rfl, checksTwo_of_regOperands fun _ _ => rfl,
    writesTwo_of_aluTwo (op := .mul) (fun _ _ _ => rfl) fun _ _ => trunc8_toNat _⟩

/-- Settles O11: a legal CMP only sets FL, to the byte of `cmpFlags_eq`, and advances. -/
theorem cmpSetsExactlyOneFlag : Obligations.CmpSetsExactlyOneFlag := by
  refine ⟨fetchedAs_row .cmp nofun fun _ => rfl, checksTwo_of_regOperands fun _ _ => rfl, fun s ra rb a b ha hb => ?_⟩
  exact ⟨_, execCmp_legal ha hb, cmpFlags_eq _ _, rfl, fun _ _ => rfl, fun _ => rfl, rfl, rfl, rfl, rfl, rfl⟩

/-- Settles O32: no answer but CMP's has another FL (`answer_fl`), and neither the register check nor the ALU reads it. -/
theorem onlyCmpWritesFl : Obligations.OnlyCmpWritesFl := by
  constructor
  · intro i s t h hi
    obtain rfl : answer i s = t := by simpa [exec_eq] using h
    exact answer_fl hi s
  · intro ra rb f s
    simp only [List.forall_mem_cons]
    exact ⟨aluTwo_setFl .mul ra rb f s, aluTwo_setFl .add ra rb f s, aluTwo_setFl .sub ra rb f s,
      aluTwo_setFl .and ra rb f s, aluOne_setFl .inc ra f s, aluOne_setFl .dec ra f s, List.forall_mem_nil _⟩

end Sys2Proof.Claims
end

section
/-! PROOFS. 42_stack_data.md: LDI (R155). The check of a single register operand and the frame of a register write are said for every
instruction. -/

namespace Sys2Proof.Claims

open Sys2Proof.Machine

theorem checksOne_of_regOperands {mk : Byte → Instr} (h : ∀ ra, (mk ra).regOperands = [(1, ra)]) (s : State) :
    ChecksOne mk s := by
  intro ra ha
  exact exec_badOperand (by rw [badOperand_one (h ra), if_pos ha]) s

/-- Writing one register and advancing pc touches nothing but that register and pc. -/
theorem registerFrame_setReg_advance (s : State) (r : RegIx) (v : Byte) (L : Nat) :
    RegisterFrame [r] s ((s.setReg r v).advance L) := by
  refine ⟨fun q hq => ?_, rfl, fun _ => rfl, rfl, rfl, rfl, rfl, rfl⟩
  rw [State.reg_advance, State.reg_setReg, if_neg fun h => hq (List.mem_singleton.2 h.symm)]

/-- Settles O6: a legal LDI is one register write of the literal and an advance by 3 (`execLdi_legal`). -/
theorem ldiLoadsTheLiteral : Obligations.LdiLoadsTheLiteral := by
  refine ⟨fetchedAs_row .ldi nofun fun _ => rfl, fun s imm => checksOne_of_regOperands (fun _ => rfl) s, ?_⟩
  intro s ra imm a ha
  refine ⟨_, execLdi_legal ha, ?_, rfl, registerFrame_setReg_advance s a imm 3⟩
  rw [State.reg_advance, State.reg_setReg, if_pos rfl]

end Sys2Proof.Claims
end

section
/-! PROOFS. 43_io.md: PRN (R172). -/

namespace Sys2Proof.Claims

open Sys2Proof.Machine

/-- Settles O5: a legal PRN is one `emit` and an advance by 2 (`execPrn_legal`), and neither touches any other piece of state. -/
theorem prnEmitsTheRegister : Obligations.PrnEmitsTheRegister := by
  refine ⟨fetchedAs_row .prn nofun fun _ => rfl, checksOne_of_regOperands fun _ => rfl, fun s ra a ha => ?_⟩
  exact ⟨_, execPrn_legal ha, rfl, rfl, fun _ _ => rfl, rfl, fun _ => rfl, rfl, rfl, rfl, rfl⟩

end Sys2Proof.Claims
end

section
/-! PROOFS. 44_control_flow.md: JMP (R180). What a branch does is said once, for any condition. -/

namespace Sys2Proof.Machine

/-- The target of a jump is the value of its register, so it is an address of memory. -/
theorem State.target_toNat (s : State) (r : RegIx) : (s.target r).toNat = (s.reg r).toNat := zext9_toNat _

end Sys2Proof.Machine

namespace Sys2Proof.Claims

open Sys2Proof.Machine

/-- Loading pc touches nothing but pc (an advance is such a load too). -/
theorem registerFrame_setPc (s : State) (a : Addr) : RegisterFrame [] s (s.setPc a) :=
  ⟨fun _ _ => rfl, rfl, fun _ => rfl, rfl, rfl, rfl, rfl, rfl⟩

/-- A branch on the condition `c` goes to its register where `c` holds and falls through where it does not. -/
theorem branches_of_branchIf {mk : Byte → Instr} {taken : State → Prop} {c : Bool} {s : State}
    (hmk : ∀ ra, exec (mk ra) s = branchIf c ra s) (hc : taken s ↔ c = true) : Branches mk taken s := by
  intro ra a ha
  refine ⟨_, (hmk ra).trans (branchIf_legal c ha), ?_⟩
  cases c with
  | true => exact ⟨fun _ => s.target_toNat a, fun h => absurd (hc.2 rfl) h, registerFrame_setPc s _⟩
  | false => exact ⟨fun h => absurd (hc.1 h) Bool.false_ne_true, fun _ => rfl, registerFrame_setPc s _⟩

/-- Where a branch is taken, pc is a register's byte and so stays below 256. -/
theorem Branches.pc_lt {mk : Byte → Instr} {taken : State → Prop} {s t : State} {ra : Byte} (h : Branches mk taken s)
    (ht : taken s) (hra : ra.toNat < 8) (hx : exec (mk ra) s = .next t) : t.pc.toNat < 256 := by
  obtain ⟨u, hu, hpc, -, -⟩ := h ra (pick ra) (pick_val hra)
  obtain rfl : u = t := Host.Outcome.next.inj (hu.symm.trans hx)
  rw [hpc ht]
  exact (s.reg (pick ra)).isLt

theorem branches_jmp (s : State) : Branches .jmp (fun _ => True) s :=
  branches_of_branchIf (c := true) (fun _ => rfl) (iff_of_true trivial rfl)

/-- Settles O7: JMP is the branch that is always taken (`branches_jmp`), and a taken branch leaves a byte in pc. -/
theorem jmpLoadsPcFromTheRegister : Obligations.JmpLoadsPcFromTheRegister :=
  ⟨fetchedAs_row .jmp nofun fun _ => rfl, checksOne_of_regOperands fun _ => rfl, branches_jmp,
    fun s _ _ hra hx => (branches_jmp s).pc_lt trivial hra hx⟩

end Sys2Proof.Claims
end

section
/-! PROOFS. 45_system.md: NOP (R190). -/

namespace Sys2Proof.Machine

/-- A cell that is neither loaded nor written holds 0x00 (R51). -/
theorem cellByte_resetWith (p : Config) (a : Nat) : cellByte (State.resetWith p) a = 0#8 := rfl

end Sys2Proof.Machine

namespace Sys2Proof.Claims

open Sys2Proof.Machine

theorem fetchedAs_nop (s : State) : FetchedAs 0#8 false 0 (fun _ _ => .nop) s :=
  fetchedAs_row .nop nofun (fun _ => rfl) s

/-- Where pc selects a cell that holds 0, an enabled step is NOP's advance by 1. -/
theorem step_nop {s : State} (he : Enabled s) (hp : s.pc.toNat < 256) (hc : cellByte s s.pc.toNat = 0#8) :
    step s = .next (s.advance 1) :=
  (((fetchedAs_nop s) he nofun).2 hp hc).2 hp

/-- Settles O1: NOP is an advance by 1, which is a load of pc and so leaves the rest alone (`registerFrame_setPc`); from 255 it
reaches 256 without a wrap, where the next fetch is off the end of memory (`step_faults_off`). -/
theorem nopOnlyAdvancesPc : Obligations.NopOnlyAdvancesPc := by
  refine ⟨fetchedAs_nop, fun s => ⟨_, rfl, s.advance_pc 1, registerFrame_setPc s _⟩, cellByte_resetWith, ?_⟩
  intro s he hpc hc
  have hn : s.pc.toNat = 255 := congrArg BitVec.toNat hpc
  have ht : (s.advance 1).pc = 256#9 := by
    rw [State.advance_pc, hpc]
    rfl
  have hb : (s.advance 1).pc.toNat = 256 := congrArg BitVec.toNat ht
  have hf := step_faults_off (s := s.advance 1) he hb.ge
  rw [hb] at hf
  exact ⟨_, step_nop he (by omega) (hn.symm ▸ hc), ht, hf⟩

end Sys2Proof.Claims
end

section
/-! PROOFS. 60_exceptions.md section 1: where a step raises InvalidOpcode (R201). -/

namespace Sys2Proof.Machine

open Sys2Proof.Claims

/-- The decoder finds no row exactly for the bytes outside the opcode values of the configuration. -/
theorem rowAt_eq_none_iff (s : State) : rowAt s = none ↔ cellByte s s.pc.toNat ∉ validValues s := by
  rw [mem_validValues_iff_rowAt, ← Option.isSome_iff_exists, Option.not_isSome_iff_eq_none]

/-- Fault entry of R201: the faulting address is pc itself. -/
theorem step_faults_invalid {s : State} (h : Enabled s) (hp : s.pc.toNat < 256) (ho : rowAt s = none) :
    Faults s .invalidOpcode s.pc.toNat (cellByte s s.pc.toNat) (step s) := by
  rw [step_invalid h hp ho, Faults, BitVec.ofNat_toNat, BitVec.setWidth_eq]
  rfl

end Sys2Proof.Machine

namespace Sys2Proof.Claims

open Sys2Proof.Machine

/-- Settles O18: a byte outside the opcode values has no row (`rowAt_eq_none_iff`), and the step then depends on no cell beyond pc
(`step_faults_invalid`). -/
theorem unknownByteRaisesInvalidOpcode : Obligations.UnknownByteRaisesInvalidOpcode :=
  fun s he hp hv => step_faults_invalid he hp ((rowAt_eq_none_iff s).2 hv)

end Sys2Proof.Claims
end

section
/-! PROOFS. 60_exceptions.md section 2 and 40_execution_cycle.md R90 to R99: an enabled step either takes the first fault of the
stated order or completes its instruction. -/

namespace Sys2Proof.Machine

variable {s t : State} {i : Instr} {f : FaultRecord}

/-! ### The first fault, by its place in the order (R207) -/

/-- The five places in the order, each with what it takes to be reached and what the first fault then is: the last one's is the stack
fault of the fetched instruction, if it meets one. -/
theorem firstFault_cases {r : Option FaultRecord} (h : firstFault s = r) :
    (256 ≤ s.pc.toNat ∧ r = some ⟨.outOfBounds, s.pc, s.pc, 0#8⟩) ∨
      (s.pc.toNat < 256 ∧ rowAt s = none ∧ r = some ⟨.invalidOpcode, s.pc, s.pc, cellByte s s.pc.toNat⟩) ∨
      (∃ o, s.pc.toNat < 256 ∧ rowAt s = some o ∧ 256 ≤ s.pc.toNat + o.format.fetched ∧
        r = some ⟨.outOfBounds, s.pc, 256#9, 0#8⟩) ∨
      (∃ o k b, rowAt s = some o ∧ s.pc.toNat + o.format.fetched < 256 ∧ (instrAt o s).badOperand = some (k, b) ∧
        r = some ⟨.invalidRegister, s.pc, s.pc + BitVec.ofNat 9 k, b⟩) ∨
      (∃ o, rowAt s = some o ∧ s.pc.toNat + o.format.fetched < 256 ∧ (instrAt o s).badOperand = none ∧
        stackFaultOf (instrAt o s) s = r) := by
  unfold firstFault at h
  split_ifs at h with hp
  · exact .inl ⟨hp, h.symm⟩
  rw [← rowAt] at h
  cases ho : rowAt s with
  | none =>
    rw [ho] at h
    exact .inr (.inl ⟨by omega, rfl, h.symm⟩)
  | some o =>
    simp only [ho] at h
    split_ifs at h with hF
    · exact .inr (.inr (.inl ⟨o, by omega, rfl, hF, h.symm⟩))
    · cases hb : (instrAt o s).badOperand with
      | some p =>
        rw [hb] at h
        exact .inr (.inr (.inr (.inl ⟨o, p.1, p.2, rfl, by omega, hb, h.symm⟩)))
      | none =>
        rw [hb] at h
        exact .inr (.inr (.inr (.inr ⟨o, rfl, by omega, hb, h⟩)))

/-- A stack fault's record is the one of R200 for its cause. -/
theorem stackFaultOf_legal (h : stackFaultOf i s = some f) : LegalFault f s.pc := by
  have hsp := s.sp.isLt
  have hz := zext9_toNat s.sp
  cases i with
  | push ra =>
    obtain ⟨h0, rfl⟩ : s.sp.toNat = 0 ∧ _ = f := by simpa [stackFaultOf] using h
    exact ⟨rfl, ⟨nofun, nofun, nofun⟩, nofun, nofun, nofun, fun _ => ⟨BitVec.eq_of_toNat_eq (hz.trans h0), rfl⟩, nofun⟩
  | pop ra =>
    obtain ⟨h0, rfl⟩ : 0xF4 ≤ s.sp.toNat ∧ _ = f := by simpa [stackFaultOf] using h
    exact ⟨rfl, ⟨nofun, nofun, nofun⟩, nofun, nofun, nofun, nofun,
      fun _ => ⟨h0.trans_eq hz.symm, hz.trans_le (by omega), rfl⟩⟩
  | _ => cases h

/-- A first fault records the pc of its instruction and one of the causes 1 to 5 (R200, R208). -/
theorem firstFault_raised (h : firstFault s = some f) :
    f.fpc = s.pc ∧ f.cause ≠ .none ∧ f.cause ≠ .unsupportedOperation ∧ f.cause ≠ .reserved := by
  rcases firstFault_cases h with ⟨-, ⟨⟩⟩ | ⟨-, -, ⟨⟩⟩ | ⟨_, -, -, -, ⟨⟩⟩ | ⟨_, _, _, -, -, -, ⟨⟩⟩ | ⟨_, -, -, -, hs⟩
  case inr.inr.inr.inr => exact ⟨(stackFaultOf_legal hs).atPc, (stackFaultOf_legal hs).raised⟩
  all_goals exact ⟨rfl, nofun, nofun, nofun⟩

/-- A first fault at a pc in the range of R29 leaves a legal record. -/
theorem firstFault_legal (h : firstFault s = some f) (hp : s.pc.toNat ≤ 258) : LegalFault f s.pc := by
  rcases firstFault_cases h with
    ⟨h256, ⟨⟩⟩ | ⟨hlt, -, ⟨⟩⟩ | ⟨_, -, -, -, ⟨⟩⟩ | ⟨o, k, b, -, hF, hb, ⟨⟩⟩ | ⟨_, -, -, -, hs⟩
  · exact ⟨rfl, ⟨nofun, nofun, nofun⟩, nofun, fun _ => ⟨h256, hp, rfl⟩, nofun, nofun, nofun⟩
  · exact ⟨rfl, ⟨nofun, nofun, nofun⟩, fun _ => ⟨rfl, hlt⟩, nofun, nofun, nofun, nofun⟩
  · exact ⟨rfl, ⟨nofun, nofun, nofun⟩, nofun, fun _ => ⟨by simp, by simp, rfl⟩, nofun, nofun, nofun⟩
  · obtain ⟨hb8, hmem⟩ := badOperand_some hb
    obtain ⟨hk, hkF⟩ := regOperands_pos hmem
    rw [Instr.fetched, instrAt_op] at hkF
    have ha : (s.pc + BitVec.ofNat 9 k).toNat = s.pc.toNat + k := addr_add_toNat (by omega)
    have hpos : s.pc.toNat + k = s.pc.toNat + 1 ∨ s.pc.toNat + k = s.pc.toNat + 2 := by omega
    rw [← ha] at hpos
    exact ⟨rfl, ⟨nofun, nofun, nofun⟩, nofun, nofun, fun _ => ⟨hb8, hpos, ha.trans_lt (by omega)⟩, nofun, nofun⟩
  · exact stackFaultOf_legal hs

/-! ### The step by its first fault -/

theorem takeFault_of_fpc (h : f.fpc = s.pc) :
    s.takeFault f.cause f.faddr f.fval = { s with run := .faulted, fault := f } := by
  rw [State.takeFault, ← h]

theorem step_firstFault (he : Enabled s) (h : firstFault s = some f) :
    step s = .next { s with run := .faulted, fault := f } := by
  rcases firstFault_cases h with
    ⟨h256, ⟨⟩⟩ | ⟨hlt, ho, ⟨⟩⟩ | ⟨o, hlt, ho, hF, ⟨⟩⟩ | ⟨o, k, b, ho, hF, hb, ⟨⟩⟩ | ⟨o, ho, hF, hb, hs⟩
  · exact step_off he h256
  · exact step_invalid he hlt ho
  · exact step_short he hlt ho hF
  · exact (step_row he ho hF).trans (congrArg _ (answer_bad hb))
  · rw [step_row he ho hF, answer, hb, hs]
    exact congrArg _ (takeFault_of_fpc (stackFaultOf_legal hs).atPc)

/-- An instruction that an enabled step fetched and completes: it lies below 256, its operands select registers and its stack check
passes. -/
structure Completes (i : Instr) (s : State) : Prop where
  fetched : fetch s = .instr i
  below : s.pc.toNat + i.fetched < 256
  operands : i.badOperand = none
  stack : stackFaultOf i s = none

theorem completes_of_firstFault (h : firstFault s = none) : ∃ i, Completes i s := by
  obtain ⟨-, ⟨⟩⟩ | ⟨-, -, ⟨⟩⟩ | ⟨_, -, -, -, ⟨⟩⟩ | ⟨_, _, _, -, -, -, ⟨⟩⟩ | ⟨o, ho, hF, hb, hs⟩ := firstFault_cases h
  exact ⟨_, fetch_row ho hF, by rwa [Instr.fetched, instrAt_op], hb, hs⟩

theorem Completes.exec (h : Completes i s) : exec i s = .next (completed i s) := by
  rw [exec_eq, answer_good h.operands h.stack]

theorem Completes.step (h : Completes i s) (he : Enabled s) : step s = .next (completed i s) := by
  simp only [step_enabled he, h.fetched, h.exec]

/-- All that a step that answers a next state can have done, by its first fault. -/
theorem step_next_firstFault (h : step s = .next t) :
    Enabled s ∧ ((∃ f, firstFault s = some f ∧ t = { s with run := .faulted, fault := f }) ∨
      ∃ i, Completes i s ∧ t = completed i s) := by
  have he := enabled_of_step h
  refine ⟨he, ?_⟩
  cases hf : firstFault s with
  | some f => exact .inl ⟨f, rfl, by simpa [step_firstFault he hf, eq_comm] using h⟩
  | none =>
    obtain ⟨i, hi⟩ := completes_of_firstFault hf
    exact .inr ⟨i, hi, by simpa [hi.step he, eq_comm] using h⟩

end Sys2Proof.Machine

namespace Sys2Proof.Claims

open Sys2Proof.Machine

/-- Settles O21: each place of `firstFault_cases` is a case of the step, and where there is none the instruction completes. -/
theorem stepTakesTheFirstFaultInOrder : Obligations.StepTakesTheFirstFaultInOrder := by
  refine fun s he => ⟨fun f => step_firstFault he, fun hn => ?_⟩
  obtain ⟨i, hi⟩ := completes_of_firstFault hn
  refine ⟨i, hi.fetched, (hi.step he).trans hi.exec.symm, _, hi.step he, completed_not_faulted ?_⟩
  simp [he.1]

/-- Settles O22: a step whose next state is Faulted took its first fault, for a completed one is not Faulted. -/
theorem faultsArePrecise : Obligations.FaultsArePrecise := by
  intro s t h hr
  obtain ⟨he, ⟨f, hf, rfl⟩ | ⟨i, -, rfl⟩⟩ := step_next_firstFault h
  · exact ⟨rfl, firstFault_raised hf⟩
  · exact absurd hr (completed_not_faulted (by simp [he.1]))

end Sys2Proof.Claims
end

section
/-! PROOFS. What an instruction that completes changes, said once for every instruction: memory, output, registers, pc, FL; and the
fault record, the reset input and the parameters, which none changes. -/

namespace Sys2Proof.Machine

open Sys2Proof.Claims

variable {i : Instr} {s : State}

/-! ### What no completion changes -/

theorem completed_status (i : Instr) (s : State) :
    (completed i s).fault = s.fault ∧ (completed i s).rst = s.rst ∧ (completed i s).params = s.params := by
  cases i with
  | jeq ra | jne ra => cases h : s.flagEqual <;> simp [completed, h]
  | _ => exact ⟨rfl, rfl, rfl⟩

/-! ### What one instruction alone changes -/

theorem completed_mem (h : ∀ ra, i ≠ .push ra) (s : State) : (completed i s).mem = s.mem := by
  cases i with
  | push ra => exact absurd rfl (h ra)
  | jeq ra | jne ra => cases hf : s.flagEqual <;> simp [completed, hf]
  | _ => rfl

theorem completed_out (h : ∀ ra, i ≠ .prn ra) (s : State) : (completed i s).out = s.out := by
  cases i with
  | prn ra => exact absurd rfl (h ra)
  | jeq ra | jne ra => cases hf : s.flagEqual <;> simp [completed, hf]
  | _ => rfl

/-- Completion keeps the canonical form: the one store is inside the array. -/
theorem completed_wf (h : Memory.wf s.mem = true) (i : Instr) : Memory.wf (completed i s).mem = true := by
  by_cases hp : ∃ ra, i = .push ra
  · obtain ⟨ra, rfl⟩ := hp
    exact State.storeByte_wf (s := s.setSp s.pushAddr) h _ _
  · rwa [completed_mem (not_exists.1 hp)]

theorem cmpFlags_oneHot (a b : Byte) : cmpFlags a b = 1#8 ∨ cmpFlags a b = 2#8 ∨ cmpFlags a b = 4#8 := by
  rw [cmpFlags_eq]
  split_ifs
  · exact .inl rfl
  · exact .inr (.inl rfl)
  · exact .inr (.inr rfl)

/-- Completion leaves FL alone or sets exactly one flag (R27). -/
theorem completed_fl_cases (i : Instr) (s : State) :
    (completed i s).fl = s.fl ∨ (completed i s).fl = 1#8 ∨ (completed i s).fl = 2#8 ∨ (completed i s).fl = 4#8 := by
  by_cases hc : ∃ ra rb, i = .cmp ra rb
  · obtain ⟨ra, rb, rfl⟩ := hc
    exact .inr (cmpFlags_oneHot _ _)
  · exact .inl (completed_fl (fun ra rb e => hc ⟨ra, rb, e⟩) s)

/-! ### Where completion leaves pc (R30) -/

theorem lt_of_badOperand_none {k : Nat} {b : Byte} (h : i.badOperand = none) (hm : (k, b) ∈ i.regOperands) :
    b.toNat < 8 := by
  simpa using List.find?_eq_none.1 h _ hm

/-- Where no register operand is bad, an operand selects the register `pick` gives. -/
theorem regIndex_of_badOperand_none {k : Nat} {b : Byte} (h : i.badOperand = none) (hm : (k, b) ∈ i.regOperands) :
    regIndex b = some (pick b) :=
  (regIndex_eq_some_iff _ _).2 (pick_val (lt_of_badOperand_none h hm))

/-- Completion goes to the register of a taken jump, and otherwise on by the length. -/
theorem completed_pc (hb : i.badOperand = none) :
    (completed i s).pc = (jumpsTo s i).elim (s.pc + BitVec.ofNat 9 (advanceOf i)) s.target := by
  cases i with
  | jmp ra => simp [jumpsTo, completed, regIndex_of_badOperand_none hb (List.mem_singleton_self (1, ra))]
  | jeq ra | jne ra =>
    have hr := regIndex_of_badOperand_none hb (List.mem_singleton_self (1, ra))
    cases hf : s.fl.getLsbD 0 <;> simp only [jumpsTo, completed, State.flagEqual, hf, hr] <;> rfl
  | halt => simp [jumpsTo, completed, advanceOf]
  | _ => rfl

theorem advanceOf_le (i : Instr) : advanceOf i ≤ 3 := by
  cases i <;> simp [advanceOf]

/-- A jump's target is below 256, and 9 bits hold the next pc of an instruction that lies below 256. -/
theorem Completes.pc_toNat (h : Completes i s) :
    (completed i s).pc.toNat = (jumpsTo s i).elim (s.pc.toNat + advanceOf i) fun r => (s.reg r).toNat := by
  have := h.below
  have := advanceOf_le i
  rw [completed_pc h.operands]
  cases jumpsTo s i with
  | none => exact addr_add_toNat (by omega)
  | some r => exact s.target_toNat r

/-! ### The invariant (10_state.md section 7) -/

/-- Fault entry with a legal record keeps the invariant. -/
theorem MachineInv.keep_faulted {s : State} {f : FaultRecord} (h : MachineInv s) (hf : LegalFault f s.pc) :
    MachineInv { s with run := .faulted, fault := f } :=
  ⟨h.memWf, h.pcRange, h.flags, fun hr => absurd rfl hr, fun _ => hf⟩

/-- An instruction that completes from a state that is not Faulted keeps the invariant. -/
theorem MachineInv.keep_completed {s : State} {i : Instr} (h : MachineInv s) (hr : s.run ≠ .faulted) (hi : Completes i s) :
    MachineInv (completed i s) := by
  obtain ⟨hfault, -, hparams⟩ := completed_status i s
  refine ⟨completed_wf h.memWf i, ?_, ?_, fun _ => hfault.trans (h.quiet hr), fun e => absurd e (completed_not_faulted hr)⟩
  · have := hi.below
    have := advanceOf_le i
    rw [hi.pc_toNat]
    cases jumpsTo s i with
    | none => show s.pc.toNat + advanceOf i ≤ 258; omega
    | some r => exact (Nat.le_of_lt (s.reg r).isLt).trans (by decide)
  · rw [hparams]
    rcases completed_fl_cases i s with hfl | hflag
    · rw [hfl]
      exact h.flags
    · exact .inr hflag

end Sys2Proof.Machine

namespace Sys2Proof.Claims

open Sys2Proof.Machine

/-- Settles O28: a step takes a first fault, whose record is legal (`firstFault_legal`), or completes an instruction. -/
theorem everyStepKeepsTheInvariant : Obligations.EveryStepKeepsTheInvariant := by
  intro s t hinv h
  obtain ⟨he, ⟨f, hf, rfl⟩ | ⟨i, hi, rfl⟩⟩ := step_next_firstFault h
  · exact hinv.keep_faulted (firstFault_legal hf hinv.pcRange)
  · exact hinv.keep_completed (by simp [he.1]) hi

/-- Settles O27: after reset memory is empty, pc is 0, FL is FL_RESET and the record is clear. -/
theorem resetMeetsTheInvariant : Obligations.ResetMeetsTheInvariant :=
  fun p => ⟨Memory.wf_reset p, Nat.zero_le _, .inl rfl, fun _ => rfl, nofun⟩

/-- Settles O25: a first fault has a cause, where the invariant has the record clear before the step; completion writes neither. -/
theorem faultRecordIsWrittenOnlyOnEntry : Obligations.FaultRecordIsWrittenOnlyOnEntry := by
  intro s t hinv h
  obtain ⟨he, ⟨f, hf, rfl⟩ | ⟨i, -, rfl⟩⟩ := step_next_firstFault h
  · obtain ⟨-, hcause, -, -⟩ := firstFault_raised hf
    refine iff_of_true (fun e => hcause ?_) rfl
    have hclear := e.trans (hinv.quiet (by simp [he.1]))
    rw [show f = FaultRecord.clear from hclear]
    rfl
  · exact iff_of_false (fun hne => hne (completed_status i s).1) (completed_not_faulted (by simp [he.1]))

end Sys2Proof.Claims
end

section
/-! PROOFS. 30_encoding.md sections 1 to 3: the decoder and the encoder against each other. -/

namespace Sys2Proof

/-! ### From an instruction to its bytes and back -/

theorem encode_append (i : Instr) (bs : List Byte) : encode i ++ bs = i.op.value :: (i.operands ++ bs) := rfl

/-- A row assembles its instruction from the operand bytes and one byte more (which INC and DEC fetch, R80). -/
theorem Op.assemble_operands_append (i : Instr) (x : Byte) (rest : List Byte) :
    i.op.assemble (i.operands ++ x :: rest) = .instr i := by
  cases i <;> rfl

/-- A row that fetches no more than its operand bytes needs none after them. -/
theorem Op.assemble_operands {i : Instr} (h : i.fetched + 1 = i.length) : i.op.assemble i.operands = .instr i := by
  cases i with
  | inc ra | dec ra => exact absurd h (show ¬ 2 + 1 = 2 by decide)
  | _ => rfl

theorem decode_encode_append {i : Instr} {ext : Bool} (h : i.op.isExt = true → ext = true) (x : Byte) (rest : List Byte) :
    decode ext (encode i ++ x :: rest) = .instr i := by
  rw [encode_append, Machine.decode_row (Machine.Op.ofByte_value_self _ h), Op.assemble_operands_append]

/-! ### From bytes to an instruction and back -/

theorem decodeR_eq_instr {mk : Byte → Instr} {bs : List Byte} {i : Instr} (h : decodeR mk bs = .instr i) :
    ∃ ra tl, bs = ra :: tl ∧ i = mk ra := by
  cases bs with
  | nil => cases h
  | cons ra tl => exact ⟨ra, tl, rfl, by cases h; rfl⟩

theorem decodeRR_eq_instr {mk : Byte → Byte → Instr} {bs : List Byte} {i : Instr} (h : decodeRR mk bs = .instr i) :
    ∃ ra b2 tl, bs = ra :: b2 :: tl ∧ i = mk ra b2 := by
  match bs, h with
  | ra :: b2 :: tl, h => exact ⟨ra, b2, tl, rfl, by cases h; rfl⟩

/-- What a row assembles is an instruction of the row, whose bytes are those that were there. -/
theorem Op.assemble_eq_instr {o : Op} {bs : List Byte} {i : Instr} (h : o.assemble bs = .instr i) :
    i.op = o ∧ (o.value :: bs).take i.length = encode i ∧ i.fetched ≤ bs.length := by
  cases o with
  | nop | halt => cases h; exact ⟨rfl, rfl, Nat.zero_le _⟩
  | push | pop | prn | jmp | jeq | jne =>
    obtain ⟨ra, tl, rfl, rfl⟩ := decodeR_eq_instr h
    exact ⟨rfl, rfl, Nat.le_add_left 1 _⟩
  | ldi | mul | cmp | add | sub | and | inc | dec =>
    obtain ⟨ra, b2, tl, rfl, rfl⟩ := decodeRR_eq_instr h
    exact ⟨rfl, rfl, Nat.le_add_left 2 _⟩

/-- Without the extension the decoder finds no row of R77 (R12). -/
theorem Op.isExt_of_ofByte {b : Byte} {o : Op} (h : Op.ofByte false b = some o) : o.isExt = false := by
  have := List.find?_some h
  simp only [Bool.false_or, Bool.and_eq_true, Bool.not_eq_true'] at this
  exact this.2

theorem decode_eq_instr {ext : Bool} {bs : List Byte} {i : Instr} (h : decode ext bs = .instr i) :
    ∃ opc tl o, bs = opc :: tl ∧ Op.ofByte ext opc = some o ∧ o.assemble tl = .instr i := by
  cases bs with
  | nil => cases h
  | cons opc tl =>
    cases ho : Op.ofByte ext opc with
    | none => simp [decode, ho] at h
    | some o => exact ⟨opc, tl, o, rfl, ho, by rwa [Machine.decode_row ho] at h⟩

end Sys2Proof

namespace Sys2Proof.Claims

open Sys2Proof.Machine

/-- Settles O45: the decoder finds the row by its own opcode value, and the row assembles the instruction from its operand bytes. -/
theorem decodeOfEncodeIsTheInstruction : Obligations.DecodeOfEncodeIsTheInstruction := by
  refine ⟨fun i x rest => decode_encode_append (fun _ => rfl) x rest, fun i h => ?_, fun i x rest h => ?_⟩
  · rw [encode, decode_row (Op.ofByte_value_self i.op fun _ => rfl), Op.assemble_operands h]
  · exact decode_encode_append (fun e => absurd e (by simp [h])) x rest

/-- Settles O46: the row's opcode value is the first byte, and `Op.assemble_eq_instr` gives the rest. -/
theorem encodeOfDecodeIsWhatWasRead : Obligations.EncodeOfDecodeIsWhatWasRead := by
  intro ext bs i h
  obtain ⟨opc, tl, o, rfl, ho, ha⟩ := decode_eq_instr h
  obtain ⟨rfl, htake, hlen⟩ := Op.assemble_eq_instr ha
  rw [Op.ofByte_value _ _ _ ho] at htake
  refine ⟨htake, Nat.succ_le_succ hlen, ?_⟩
  rintro rfl
  exact Op.isExt_of_ofByte ho

/-- Settles O47: each word is a closed case of the decoder. -/
theorem wordsOfTheSpecDecode : Obligations.WordsOfTheSpecDecode := by
  refine ⟨?_, ?_, ?_, ?_, ?_, ?_, ?_⟩ <;> decide

end Sys2Proof.Claims
end

section
/-! PROOFS. 60_exceptions.md section 1 and 40_execution_cycle.md section 1: what a meaning answers, and when there is a step. -/

namespace Sys2Proof.Machine

theorem wellFormed_iff (i : Instr) : i.WellFormed = true ↔ i.badOperand = none := Option.isNone_iff_eq_none

theorem notWellFormed_iff (i : Instr) : i.WellFormed = false ↔ i.badOperand ≠ none := by
  rw [← Bool.not_eq_true, wellFormed_iff]

/-- An instruction with a bad operand or a stack fault takes a fault at its pc. -/
theorem answer_faulted {i : Instr} {s : State} (h : i.badOperand ≠ none ∨ stackFaultOf i s ≠ none) :
    (answer i s).run = .faulted ∧ (answer i s).fault.cause ≠ .none ∧ (answer i s).fault.fpc = s.pc := by
  rcases answer_cases i s with ⟨k, b, -, ha⟩ | ⟨f, -, hs, ha⟩ | ⟨hb, hs, -⟩
  · rw [ha]
    exact ⟨rfl, nofun, rfl⟩
  · rw [ha]
    exact ⟨rfl, (stackFaultOf_legal hs).raised.1, rfl⟩
  · exact absurd h (by simp [hb, hs])

/-- A step that is enabled answers a next state: its first fault's, or the completed one. -/
theorem step_next_of_enabled {s : State} (he : Enabled s) : ∃ t, step s = .next t := by
  cases hf : firstFault s with
  | some f => exact ⟨_, step_firstFault he hf⟩
  | none =>
    obtain ⟨i, hi⟩ := completes_of_firstFault hf
    exact ⟨_, hi.step he⟩

theorem step_notEnabled {s : State} {f : Fault} (h : notEnabled s = some f) : step s = .fault f := by
  simp [step, h]

theorem notEnabled_rst {s : State} (h : s.rst = true) : notEnabled s = some .heldInReset := by
  simp [notEnabled, h]

theorem notEnabled_halted {s : State} (h : s.rst = false) (hr : s.run = .halted) : notEnabled s = some .halted := by
  simp [notEnabled, h, hr]

theorem notEnabled_faulted {s : State} (h : s.rst = false) (hr : s.run = .faulted) : notEnabled s = some .faulted := by
  simp [notEnabled, h, hr]

end Sys2Proof.Machine

namespace Sys2Proof.Claims

open Sys2Proof.Machine

/-- Settles O20: the bad operand is the one fault entry records, and without one only the stack bounds raise a fault. -/
theorem badRegisterIndexRaisesInvalidRegister : Obligations.BadRegisterIndexRaisesInvalidRegister := by
  constructor
  · intro i s k b hb
    obtain ⟨h8, hmem⟩ := badOperand_some hb
    exact ⟨h8, hmem, exec_badOperand hb s⟩
  · intro i s t hw hr h hf
    obtain rfl : answer i s = t := by simpa [exec_eq] using h
    rcases answer_cases i s with ⟨k, b, hb, -⟩ | ⟨f, -, hs, ha⟩ | ⟨-, -, ha⟩
    · simp [(wellFormed_iff i).1 hw] at hb
    · rcases stackFaultOf_cause hs with hc | hc <;> simp [ha, hc]
    · exact absurd (ha ▸ hf) (completed_not_faulted hr)

/-- Settles O24: the answer is completion where no operand is bad and no stack fault is met, and fault entry otherwise. -/
theorem everyInstructionCompletesOrFaults : Obligations.EveryInstructionCompletesOrFaults := by
  intro i s
  constructor
  · intro hw hs
    obtain ⟨hfault, hrst, -⟩ := completed_status i s
    refine ⟨completed i s, by rw [exec_eq, answer_good ((wellFormed_iff i).1 hw) hs], hfault, hrst, ?_⟩
    rw [completed_run]
    by_cases hi : i = .halt
    · exact .inr ⟨if_pos hi, hi⟩
    · exact .inl ⟨if_neg hi, hi⟩
  · rw [notWellFormed_iff]
    exact fun h => ⟨answer i s, exec_eq i s, answer_faulted h⟩

/-- Settles O17: the three answers of fetch are the three arms of an enabled step. -/
theorem stepRunsTheDecodedInstruction : Obligations.StepRunsTheDecodedInstruction := by
  refine ⟨fun s i he hf => ?_, fun s b he hf => ?_, fun s k he hf => ?_⟩ <;> simp only [step_enabled he, hf]
  · rw [Faults, BitVec.ofNat_toNat, BitVec.setWidth_eq]
    rfl
  · rw [Faults, BitVec.ofNat_add, BitVec.ofNat_toNat, BitVec.setWidth_eq]
    rfl

/-- Settles O23: an enabled step answers (`step_next_of_enabled`), and each way not to be enabled has its name. -/
theorem stepExistsExactlyWhenEnabled : Obligations.StepExistsExactlyWhenEnabled :=
  ⟨fun _ => ⟨step_next_of_enabled, fun ⟨_, h⟩ => enabled_of_step h⟩, fun _ h => step_notEnabled (notEnabled_rst h),
    fun _ h hr => step_notEnabled (notEnabled_halted h hr), fun _ h hr => step_notEnabled (notEnabled_faulted h hr)⟩

/-- Settles O2: HALT changes the run state alone, and a Halted state enables no step. -/
theorem haltStopsTheMachine : Obligations.HaltStopsTheMachine :=
  ⟨fetchedAs_row .halt nofun fun _ => rfl, fun s => ⟨s.halt, rfl, rfl, rfl, fun _ _ => rfl, rfl, fun _ => rfl, rfl, rfl, rfl, rfl,
    fun h => step_notEnabled (notEnabled_halted h rfl)⟩⟩

end Sys2Proof.Claims
end

section
/-! PROOFS. What a step writes: memory (20_memory.md section 2), output (43_io.md), registers (10_state.md section 1) and pc
(10_state.md section 3). Each follows from the two ends of a step, fault entry and completion. -/

namespace Sys2Proof.Machine

open Sys2Proof.Claims

/-- Completion of an instruction whose operands are legal writes no register outside its row of the table (R26). -/
theorem completed_sameRegsBut {i : Instr} (hb : i.badOperand = none) (s : State) :
    SameRegsBut (writtenRegs i) s (completed i s) := by
  intro q hq
  cases i with
  | nop | halt | prn ra | jmp ra | cmp ra rb => rfl
  | jeq ra | jne ra => cases hf : s.flagEqual <;> simp [completed, hf]
  | push ra =>
    have h7 : spIndex ≠ q := fun e => hq (List.mem_singleton.2 e.symm)
    simp [completed, h7]
  | pop ra =>
    simp only [writtenRegs, regIndex_of_badOperand_none hb (List.mem_singleton_self (1, ra)), Option.toList_some,
      List.mem_cons, List.not_mem_nil, or_false, not_or] at hq
    have h7 : spIndex ≠ q := fun e => hq.1 e.symm
    simp [completed, h7, Ne.symm hq.2]
  | ldi ra imm | inc ra | dec ra =>
    simp only [writtenRegs, regIndex_of_badOperand_none hb (List.mem_singleton_self (1, ra)), Option.toList_some,
      List.mem_singleton] at hq
    simp [completed, Ne.symm hq]
  | mul ra rb | add ra rb | sub ra rb | and ra rb =>
    simp only [writtenRegs, regIndex_of_badOperand_none hb List.mem_cons_self, Option.toList_some, List.mem_singleton] at hq
    simp [completed, Ne.symm hq]

end Sys2Proof.Machine

namespace Sys2Proof.Claims

open Sys2Proof.Machine

/-- Settles O34: fault entry keeps memory, only PUSH completes with another one, and its store is at `pushAddr`. -/
theorem onlyPushWritesMemory : Obligations.OnlyPushWritesMemory := by
  intro s t a h hne
  obtain ⟨-, ⟨f, -, rfl⟩ | ⟨i, hi, rfl⟩⟩ := step_next_firstFault h
  · exact absurd rfl hne
  by_cases hp : ∃ ra, i = .push ra
  · obtain ⟨ra, rfl⟩ := hp
    have ha : a = s.pushAddr.toNat := by
      by_contra hna
      exact hne (Memory.read_write_ne hna _ _)
    have hsp : s.sp.toNat ≠ 0 := by simpa [stackFaultOf] using hi.stack
    have := s.pushAddr_toNat hsp
    exact ⟨ra, hi.fetched, ha, by omega, s.reg_setSp spIndex _⟩
  · exact absurd (by rw [cellByte, completed_mem (not_exists.1 hp)]; rfl) hne

/-- Settles O35: fault entry writes no register, and completion those of `completed_sameRegsBut`. -/
theorem registersWrittenAreThoseOfTheTable : Obligations.RegistersWrittenAreThoseOfTheTable := by
  intro i s t h
  obtain rfl : answer i s = t := by simpa [exec_eq] using h
  rcases answer_cases i s with ⟨k, b, -, ha⟩ | ⟨f, -, -, ha⟩ | ⟨hb, -, ha⟩
  · rw [ha]
    exact ⟨fun _ _ => rfl, rfl, rfl⟩
  · rw [ha]
    exact ⟨fun _ _ => rfl, rfl, rfl⟩
  · rw [ha]
    obtain ⟨-, hrst, hparams⟩ := completed_status i s
    exact ⟨completed_sameRegsBut hb s, hrst, hparams⟩

/-- Settles O36: fault entry keeps OUT, and only PRN completes with another one. -/
theorem onlyPrnWritesTheOutput : Obligations.OnlyPrnWritesTheOutput := by
  intro s t h
  obtain ⟨-, ⟨f, -, rfl⟩ | ⟨i, hi, rfl⟩⟩ := step_next_firstFault h
  · exact .inl rfl
  by_cases hp : ∃ ra, i = .prn ra
  · obtain ⟨ra, rfl⟩ := hp
    exact .inr ⟨ra, pick ra, hi.fetched, pick_val (lt_of_badOperand_none hi.operands (List.mem_singleton_self (1, ra))), rfl⟩
  · exact .inl (completed_out (not_exists.1 hp) s)

/-- Settles O38: fault entry keeps pc, completion moves it as `Completes.pc_toNat` says, and only HALT completes out of Running. -/
theorem pcMovesInTheStatedWays : Obligations.PcMovesInTheStatedWays := by
  intro s i t he hfetch h
  obtain ⟨-, ⟨f, -, rfl⟩ | ⟨j, hj, rfl⟩⟩ := step_next_firstFault h
  · exact ⟨nofun, nofun, fun _ => rfl⟩
  obtain rfl : j = i := DecodeResult.instr.inj (hj.fetched.symm.trans hfetch)
  refine ⟨fun _ r hr => by rw [hj.pc_toNat, hr]; rfl, fun _ hn => by rw [hj.pc_toNat, hn]; rfl, fun hr => ?_⟩
  obtain rfl : j = .halt := by
    by_contra hne
    exact hr (by rw [completed_run, if_neg hne, he.1])
  rfl

end Sys2Proof.Claims
end

section
/-! PROOFS. 41_alu.md: the results of the ALU (section 2) and the extension's instructions (section 3). -/

namespace Sys2Proof.Machine

theorem AluOp.res_and_toNat (x y : Byte) : (AluOp.res .and x y).toNat = (x.toNat &&& y.toNat) % 256 := by
  rw [AluOp.res, ← BitVec.toNat_and, Nat.mod_eq_of_lt (x &&& y).isLt]

end Sys2Proof.Machine

namespace Sys2Proof.Claims

open Sys2Proof.Machine

/-- An instruction of format RX that runs the ALU writes the ALU's result, by the arithmetic of its operation. -/
theorem writesOne_of_aluOne {mk : Byte → Instr} {op : AluOp} {f : Nat → Nat}
    (hmk : ∀ ra s, exec (mk ra) s = aluOne op ra s) (hf : ∀ x y, (op.res x y).toNat = f x.toNat % 256) (s : State) :
    WritesOne mk f s := by
  intro ra a ha
  refine ⟨_, (hmk ra s).trans (aluOne_legal op ha), ?_, rfl, registerFrame_setReg_advance s a _ 2⟩
  rw [State.reg_advance, State.reg_aluInto, if_pos rfl, hf]

/-- Settles O12: the ALU's sum is `trunc8` of the exact sum. -/
theorem addWrapsModulo256 : Obligations.AddWrapsModulo256 :=
  ⟨fetchedAs_row .add (fun _ => rfl) fun _ => rfl, checksTwo_of_regOperands fun _ _ => rfl,
    writesTwo_of_aluTwo (op := .add) (fun _ _ _ => rfl) fun _ _ => trunc8_toNat _⟩

/-- Settles O13: the ALU's difference is `trunc8` of the difference taken above 256. -/
theorem subWrapsModulo256 : Obligations.SubWrapsModulo256 :=
  ⟨fetchedAs_row .sub (fun _ => rfl) fun _ => rfl, checksTwo_of_regOperands fun _ _ => rfl,
    writesTwo_of_aluTwo (op := .sub) (fun _ _ _ => rfl) fun _ _ => trunc8_toNat _⟩

/-- Settles O14: the ALU's result is the bitwise and of the registers, which is taken bit by bit. -/
theorem andIsBitByBit : Obligations.AndIsBitByBit := by
  refine ⟨fetchedAs_row .and (fun _ => rfl) fun _ => rfl, checksTwo_of_regOperands fun _ _ => rfl,
    writesTwo_of_aluTwo (op := .and) (fun _ _ _ => rfl) AluOp.res_and_toNat, ?_⟩
  intro s ra rb a b t ha hb h k
  obtain rfl := Host.Outcome.next.inj ((aluTwo_legal .and ha hb).symm.trans h)
  rw [State.reg_advance, State.reg_aluInto, if_pos rfl]
  exact BitVec.getLsbD_and

/-- Settles O15: the ALU's INC is `trunc8` of its operand plus 1. -/
theorem incWrapsModulo256 : Obligations.IncWrapsModulo256 :=
  ⟨fetchedAs_row .inc (fun _ => rfl) fun _ => rfl, checksOne_of_regOperands fun _ => rfl,
    writesOne_of_aluOne (op := .inc) (fun _ _ => rfl) fun _ _ => trunc8_toNat _⟩

/-- Settles O16: the ALU's DEC is `trunc8` of its operand plus 255. -/
theorem decWrapsModulo256 : Obligations.DecWrapsModulo256 :=
  ⟨fetchedAs_row .dec (fun _ => rfl) fun _ => rfl, checksOne_of_regOperands fun _ => rfl,
    writesOne_of_aluOne (op := .dec) (fun _ _ => rfl) fun _ _ => trunc8_toNat _⟩

/-- Settles O40: every result but AND's is `trunc8` of an exact result; SUB's is the integer difference plus 256. -/
theorem aluResultsAreExactModulo256 : Obligations.AluResultsAreExactModulo256 := by
  intro a b
  refine ⟨trunc8_toNat _, ?_, fun k => BitVec.getLsbD_and, trunc8_toNat _, trunc8_toNat _, trunc8_toNat _⟩
  have ha := a.isLt
  have hb := b.isLt
  rw [AluOp.res, trunc8_toNat]
  omega

end Sys2Proof.Claims
end

section
/-! PROOFS. 44_control_flow.md: JEQ and JNE (R181, R182). -/

namespace Sys2Proof.Claims

open Sys2Proof.Machine

theorem branches_jeq (s : State) : Branches .jeq (fun s => s.fl.getLsbD 0 = true) s :=
  branches_of_branchIf (c := s.flagEqual) (fun _ => rfl) Iff.rfl

theorem branches_jne (s : State) : Branches .jne (fun s => s.fl.getLsbD 0 = false) s :=
  branches_of_branchIf (c := !s.flagEqual) (fun _ => rfl) (Bool.not_eq_true' _).symm.to_iff

/-- Settles O8: JEQ is the branch on FL bit 0. -/
theorem jeqBranchesWhenEqual : Obligations.JeqBranchesWhenEqual :=
  ⟨fetchedAs_row .jeq nofun fun _ => rfl, checksOne_of_regOperands fun _ => rfl, branches_jeq⟩

/-- Settles O9: JNE is the branch on FL bit 0 negated. -/
theorem jneBranchesWhenNotEqual : Obligations.JneBranchesWhenNotEqual :=
  ⟨fetchedAs_row .jne nofun fun _ => rfl, checksOne_of_regOperands fun _ => rfl, branches_jne⟩

/-- Settles O39: FL bit 0 is set, where JEQ branches and JNE falls through, or clear, where it is the other way round. -/
theorem exactlyOneOfJeqAndJneBranches : Obligations.ExactlyOneOfJeqAndJneBranches := by
  intro s ra a ha
  obtain ⟨t, ht, htaken, hnext, -⟩ := branches_jeq s ra a ha
  obtain ⟨u, hu, hutaken, hunext, -⟩ := branches_jne s ra a ha
  refine ⟨t, u, ht, hu, ?_⟩
  cases hf : s.fl.getLsbD 0 with
  | true => exact .inl ⟨htaken hf, hunext fun e => nomatch hf.symm.trans e⟩
  | false => exact .inr ⟨hutaken hf, hnext fun e => nomatch hf.symm.trans e⟩

end Sys2Proof.Claims
end

section
/-! PROOFS. 42_stack_data.md section 1: PUSH and POP, what they leave and how they meet each other and the fetch. -/

namespace Sys2Proof.Machine

open Sys2Proof.Claims

variable {s t : State} {a : RegIx} {ra : Byte}

/-! ### PUSH (R150) -/

/-- The state a PUSH of register `a` completes with. -/
def pushed (a : RegIx) (s : State) : State :=
  ((s.setSp s.pushAddr).storeByte s.pushAddr ((s.setSp s.pushAddr).reg a)).advance 2

theorem exec_push_room (ha : ra.toNat = a.val) (h : s.sp.toNat ≠ 0) : exec (.push ra) s = .next (pushed a s) :=
  execPush_room ha h

theorem pushed_sp (a : RegIx) (s : State) : (pushed a s).sp = s.pushAddr := s.reg_setSp spIndex _

/-- The byte a PUSH stores: its register's, and the decremented SP for R7. -/
theorem cellByte_pushed (h : Memory.wf s.mem = true) (a : RegIx) :
    cellByte (pushed a s) s.pushAddr.toNat = if a = 7 then s.pushAddr else s.reg a := by
  have hv : (s.setSp s.pushAddr).reg a = if a = 7 then s.pushAddr else s.reg a := by
    rw [State.reg_setSp]
    exact if_congr eq_comm rfl rfl
  rw [← hv]
  exact (Memory.read_write h _ _ _).trans (if_pos rfl)

theorem sameMemoryBut_pushed (a : RegIx) (s : State) : SameMemoryBut s.pushAddr.toNat s (pushed a s) :=
  fun _ hb => Memory.read_write_ne hb _ _

/-- A write to SP leaves the other registers alone. -/
theorem State.reg_setSp_ne {q : RegIx} (hq : q ≠ 7) (s : State) (v : Byte) : (s.setSp v).reg q = s.reg q := by
  rw [State.reg_setSp, if_neg fun e => hq e.symm]

theorem sameRegsBut_pushed (a : RegIx) (s : State) : SameRegsBut [7] s (pushed a s) :=
  fun _ hq => State.reg_setSp_ne (fun e => hq (List.mem_singleton.2 e)) s _

/-! ### POP (R152) -/

/-- The state a POP of register `a` completes with. -/
def popped (a : RegIx) (s : State) : State := (s.setReg a (s.byteAt s.sp)).bumpSp.advance 2

theorem exec_pop_some (ha : ra.toNat = a.val) (h : s.sp.toNat < 0xF4) : exec (.pop ra) s = .next (popped a s) :=
  execPop_some ha h

theorem popped_reg (h : a ≠ 7) (s : State) : (popped a s).reg a = cellByte s s.sp.toNat := by
  rw [popped, State.reg_advance, State.bumpSp, State.reg_setSp_ne h, State.reg_setReg, if_pos rfl]
  rfl

/-- SP after a POP: the SP the load left, plus 1. -/
theorem popped_sp (a : RegIx) (s : State) :
    (popped a s).sp = trunc8 ((if a = 7 then cellByte s s.sp.toNat else s.sp).toNat + 1) := by
  have hsp : (s.setReg a (s.byteAt s.sp)).sp = if a = 7 then cellByte s s.sp.toNat else s.sp := s.reg_setReg a spIndex _
  rw [← hsp]
  exact State.reg_bumpSp _ spIndex

theorem registerFrame_popped (a : RegIx) (s : State) : RegisterFrame [a, 7] s (popped a s) := by
  refine ⟨fun q hq => ?_, rfl, fun _ => rfl, rfl, rfl, rfl, rfl, rfl⟩
  simp only [List.mem_cons, List.not_mem_nil, or_false, not_or] at hq
  rw [popped, State.reg_advance, State.bumpSp, State.reg_setSp_ne hq.2, State.reg_setReg, if_neg (Ne.symm hq.1)]

/-! ### What the next fetch sees (R56) -/

/-- A byte the fetch reads at pc + k is the cell's there. -/
theorem fetchBytes_getElem {k : Nat} (hk : k ≤ 2) (h : s.pc.toNat + k < 256) :
    (fetchBytes s)[k]? = some (cellByte s (s.pc.toNat + k)) := by
  rw [fetchBytes_on (by omega)]
  match k, hk with
  | 0, _ => rfl
  | 1, _ => rw [if_pos h]; rfl
  | 2, _ => rw [if_pos (by omega), if_pos h]; rfl

/-! ### PUSHes in a row -/

theorem pushAll_cons_room {l : List Byte} (hb : ra.toNat < 8) (hr : s.run ≠ .faulted) (h : s.sp.toNat ≠ 0) :
    pushAll (ra :: l) s = pushAll l (pushed (pick ra) s) := by
  simp only [pushAll, exec_push_room (pick_val hb) h]
  exact if_neg hr

theorem pushAll_cons_full {l : List Byte} (hb : ra.toNat < 8) (h : s.sp.toNat = 0) :
    pushAll (ra :: l) s = .next (s.takeFault .stackOverflow (zext9 s.sp) 0#8) := by
  have he : exec (.push ra) s = _ := execPush_full (pick_val hb) h
  simp [pushAll, he]

/-- As many PUSHes as SP says complete, and take SP down by their number. -/
theorem pushAll_room {l : List Byte} (hl : ∀ b ∈ l, b.toNat < 8) (hr : s.run ≠ .faulted) (h : l.length ≤ s.sp.toNat) :
    ∃ t, pushAll l s = .next t ∧ t.run = s.run ∧ t.sp.toNat = s.sp.toNat - l.length := by
  induction l generalizing s with
  | nil => exact ⟨s, rfl, rfl, rfl⟩
  | cons b l ih =>
    obtain ⟨hb, hl⟩ := List.forall_mem_cons.1 hl
    rw [List.length_cons] at h
    have hsp : (pushed (pick b) s).sp.toNat = s.sp.toNat - 1 := by
      rw [pushed_sp, s.pushAddr_toNat (by omega)]
    obtain ⟨t, ht, hrun, hspt⟩ := ih (s := pushed (pick b) s) hl hr (by omega)
    refine ⟨t, (pushAll_cons_room hb hr (by omega)).trans ht, hrun, ?_⟩
    rw [hspt, hsp, List.length_cons]
    omega

/-- One PUSH more meets SP = 0. -/
theorem pushAll_full {l : List Byte} (hl : ∀ b ∈ l, b.toNat < 8) (hr : s.run ≠ .faulted) (h : l.length = s.sp.toNat + 1) :
    ∃ t, pushAll l s = .next t ∧ t.run = .faulted ∧ t.fault.cause = .stackOverflow := by
  induction l generalizing s with
  | nil => simp at h
  | cons b l ih =>
    obtain ⟨hb, hl⟩ := List.forall_mem_cons.1 hl
    rw [List.length_cons] at h
    by_cases h0 : s.sp.toNat = 0
    · exact ⟨_, pushAll_cons_full hb h0, rfl, rfl⟩
    · rw [pushAll_cons_room hb hr h0]
      exact ih hl hr (by rw [pushed_sp, s.pushAddr_toNat h0]; omega)

end Sys2Proof.Machine

namespace Sys2Proof.Claims

open Sys2Proof.Machine

/-- Settles O3: PUSH meets the bound at SP = 0 (`execPush_full`) and otherwise leaves `pushed`. -/
theorem pushStoresAtTheDecrementedSp : Obligations.PushStoresAtTheDecrementedSp := by
  refine ⟨fetchedAs_row .push nofun fun _ => rfl, checksOne_of_regOperands fun _ => rfl, fun s ra hra h => ?_,
    fun s ra a ha h => ⟨s.pushAddr_toNat h, ?_⟩⟩
  · have hz : zext9 s.sp = 0#9 := BitVec.eq_of_toNat_eq (by simpa using h)
    exact (execPush_full (pick_val hra) h).trans (by rw [hz]; rfl)
  · exact ⟨_, exec_push_room ha h, pushed_sp a s, fun hwf => cellByte_pushed hwf a, sameMemoryBut_pushed a s, rfl,
      sameRegsBut_pushed a s, rfl, rfl, rfl, rfl, rfl, rfl⟩

/-- Settles O4: POP meets the bound at 0xF4 (`execPop_empty`) and otherwise leaves `popped`. -/
theorem popLoadsThenIncrementsSp : Obligations.PopLoadsThenIncrementsSp := by
  refine ⟨fetchedAs_row .pop nofun fun _ => rfl, checksOne_of_regOperands fun _ => rfl, fun s ra hra h => ?_,
    fun s ra a ha h => ⟨_, exec_pop_some ha h, fun ha7 => ⟨popped_reg ha7 s, ?_⟩, ?_, rfl, registerFrame_popped a s⟩⟩
  · have hz : zext9 s.sp = BitVec.ofNat 9 s.sp.toNat := (BitVec.ofNat_toNat 9 s.sp).symm
    exact (execPop_empty (pick_val hra) h).trans (by rw [hz]; rfl)
  · rw [popped_sp, if_neg ha7, trunc8_toNat]
    omega
  · intro ha7
    rw [popped_sp, if_pos ha7, trunc8_toNat]

/-- Settles O42: PUSH leaves the value at SP - 1, POP loads it from there and takes SP back up; neither bound is met. -/
theorem pushThenPopRoundTrips : Obligations.PushThenPopRoundTrips := by
  intro s ra rb a b hwf hlo hhi ha hb ha7 hb7
  have h0 : s.sp.toNat ≠ 0 := by omega
  have hsp : (pushed a s).sp.toNat = s.sp.toNat - 1 := by rw [pushed_sp, s.pushAddr_toNat h0]
  have hcell : cellByte (pushed a s) (pushed a s).sp.toNat = s.reg a := by
    rw [pushed_sp, cellByte_pushed hwf, if_neg ha7]
  refine ⟨_, _, exec_push_room ha h0, exec_pop_some hb (by omega), (popped_reg hb7 _).trans hcell, ?_, hsp ▸ hcell⟩
  apply BitVec.eq_of_toNat_eq
  have := s.sp.isLt
  rw [popped_sp, if_neg hb7, trunc8_toNat, hsp]
  omega

/-- Settles O43: the byte at pc + k is the cell's (`fetchBytes_getElem`), and the cell at `pushAddr` is the one PUSH wrote. -/
theorem fetchSeesThePushedByte : Obligations.FetchSeesThePushedByte := by
  intro s t ra a pc k hwf h0 ha h hk hpc
  obtain rfl := Host.Outcome.next.inj ((exec_push_room ha h0).symm.trans h)
  have hlt : ((pushed a s).setPc pc).pc.toNat + k < 256 := hpc ▸ s.pushAddr.isLt
  rw [fetchBytes_getElem hk hlt, ← cellByte_pushed hwf a, ← hpc]
  rfl

/-- Settles O44: `pushAll_room` and `pushAll_full`, each by induction on the list; after reset SP is 0xF4. -/
theorem stackHoldsSpPushes : Obligations.StackHoldsSpPushes :=
  ⟨fun _ _ => pushAll_room, fun _ _ => pushAll_full, congrArg BitVec.toNat (State.resetWith_sp Config.default)⟩

end Sys2Proof.Claims
end

section
/-! PROOFS. 70_reset_and_hazards.md and 10_state.md section 7: reset, the load port, the launch and the host's observation. -/

namespace Sys2Proof.Machine

open Sys2Proof.Claims

variable {s : State}

/-! ### Reset (R230, R232) -/

theorem releaseReset_assertReset (s : State) : releaseReset (assertReset s) = State.resetWith s.params := rfl

theorem State.resetWith_reg_castSucc (p : Config) (k : Fin 7) : (State.resetWith p).reg k.castSucc = p.gprReset[k] :=
  State.resetWith_reg p k.castSucc k.isLt

theorem Config.default_gprReset (k : Fin 7) : Config.default.gprReset[k] = 0#8 := by
  revert k
  decide

/-! ### The load port (R234) -/

theorem loadByte_released (h : s.rst = false) (c v : Byte) : loadByte c v s = s := by simp [loadByte, h]

theorem loadByte_asserted (h : s.rst = true) (c v : Byte) : loadByte c v s = s.storeByte c v := by simp [loadByte, h]

theorem cellByte_storeByte_same (h : Memory.wf s.mem = true) (c v : Byte) : cellByte (s.storeByte c v) c.toNat = v :=
  (Memory.read_write h _ _ _).trans (if_pos rfl)

theorem sameMemoryBut_storeByte (s : State) (c v : Byte) : SameMemoryBut c.toNat s (s.storeByte c v) :=
  fun _ ha => Memory.read_write_ne ha _ _

/-! ### The image (R233) -/

theorem loadImage_cons (h : s.rst = true) (n : Nat) (b : Byte) (bs : List Byte) :
    loadImage n (b :: bs) s = loadImage (n + 1) bs (s.storeByte (trunc8 n) b) := by
  rw [loadImage, loadByte_asserted h]

/-- Loading an image while reset is asserted writes memory only. -/
theorem loadImage_eq (h : s.rst = true) (n : Nat) (bs : List Byte) :
    loadImage n bs s = { s with mem := (loadImage n bs s).mem } := by
  induction bs generalizing n s with
  | nil => rfl
  | cons b bs ih =>
    rw [loadImage_cons h]
    exact ih (s := s.storeByte (trunc8 n) b) h (n + 1)

/-- The cells below the address the image starts at keep their bytes. -/
theorem cellByte_loadImage_below (h : s.rst = true) {n a : Nat} {bs : List Byte} (hn : n + bs.length ≤ 256) (ha : a < n) :
    cellByte (loadImage n bs s) a = cellByte s a := by
  induction bs generalizing n s with
  | nil => rfl
  | cons b bs ih =>
    rw [List.length_cons] at hn
    have h' : (s.storeByte (trunc8 n) b).rst = true := h
    rw [loadImage_cons h, ih h' (by omega) (by omega)]
    exact sameMemoryBut_storeByte s _ b a (by rw [trunc8_toNat]; omega)

/-- Byte k of the image stands k cells above its start; beyond the image the cells keep their bytes. -/
theorem cellByte_loadImage (h : s.rst = true) (hwf : Memory.wf s.mem = true) {n : Nat} {bs : List Byte}
    (hn : n + bs.length ≤ 256) (k : Nat) :
    cellByte (loadImage n bs s) (n + k) = bs.getD k (cellByte s (n + k)) := by
  induction bs generalizing n s k with
  | nil => rfl
  | cons b bs ih =>
    rw [List.length_cons] at hn
    have hc : (trunc8 n).toNat = n := by rw [trunc8_toNat]; omega
    have h' : (s.storeByte (trunc8 n) b).rst = true := h
    rw [loadImage_cons h]
    cases k with
    | zero =>
      rw [cellByte_loadImage_below h' (by omega) (by omega)]
      have hb := cellByte_storeByte_same hwf (trunc8 n) b
      rwa [hc] at hb
    | succ k =>
      have hne : n + (k + 1) ≠ (trunc8 n).toNat := by omega
      rw [List.getD_cons_succ, ← sameMemoryBut_storeByte s _ b _ hne, show n + (k + 1) = n + 1 + k by omega]
      exact ih h' (State.storeByte_wf hwf _ _) (by omega) k

/-! ### The observation (R8, R240) -/

theorem RunState.code_eq_one_iff (r : RunState) : r.code = 1#2 ↔ r = .halted := by cases r <;> decide

theorem RunState.code_eq_two_iff (r : RunState) : r.code = 2#2 ↔ r = .faulted := by cases r <;> decide

theorem State.isFinal_iff (s : State) : s.isFinal = true ↔ s.run ≠ .running := bne_iff_ne

end Sys2Proof.Machine

namespace Sys2Proof.Claims

open Sys2Proof.Machine

/-- Settles O26: reset asserted and released is `State.resetWith` of the machine's own parameters, field by field. -/
theorem resetGivesTheStatedValues : Obligations.ResetGivesTheStatedValues := by
  refine ⟨fun s => ⟨_, releaseReset_assertReset s, State.resetWith_sp _, State.resetWith_reg_castSucc _, rfl, rfl, rfl, rfl, rfl,
    rfl, rfl, cellByte_resetWith _, rfl, rfl, rfl⟩, rfl, rfl, fun k => ?_, State.resetWith_sp _⟩
  exact (State.resetWith_reg_castSucc _ k).trans (Config.default_gprReset k)

/-- Settles O29: the image is written from address 0 over the blank memory of reset (`cellByte_loadImage`), and nothing else is. -/
theorem launchLoadsTheImage : Obligations.LaunchLoadsTheImage := by
  intro image s
  constructor
  · intro hlen
    refine ⟨_, if_neg (Nat.not_lt.2 hlen), ?_, loadImage_wf (s := assertReset s) (Memory.wf_reset s.params) 0 image, fun a => ?_⟩
    · rw [loadImage_eq rfl]
      rfl
    · have h := cellByte_loadImage (s := assertReset s) rfl (Memory.wf_reset s.params) (n := 0) (bs := image) (by omega) a
      rwa [Nat.zero_add] at h
  · exact fun hlen => if_pos hlen

/-- Settles O30: the load port is a store while reset is asserted, and nothing otherwise. -/
theorem loadPortWorksOnlyInReset : Obligations.LoadPortWorksOnlyInReset := by
  refine fun s addr data => ⟨fun h => loadByte_released h addr data, fun h hwf => ?_⟩
  rw [loadByte_asserted h]
  exact ⟨cellByte_storeByte_same hwf addr data, sameMemoryBut_storeByte s addr data, rfl⟩

/-- Settles O31: the observation is there where the run state is final, with the run state's code. -/
theorem observationExistsExactlyAtTheEnd : Obligations.ObservationExistsExactlyAtTheEnd := by
  intro s
  refine ⟨fun hr => if_neg fun e => (s.isFinal_iff.1 e) hr, fun hr => ⟨_, if_pos (s.isFinal_iff.2 hr), ?_⟩⟩
  exact ⟨s.run.code_eq_one_iff, s.run.code_eq_two_iff, rfl, rfl, rfl, rfl, rfl, rfl, rfl, rfl, rfl⟩

end Sys2Proof.Claims
end

section
/-! PROOFS. What no step depends on: earlier output (43_io.md section 1), FL bits 7 to 1 (10_state.md section 2) and, but for its
five opcodes, ALU_DECODE_EXT (00_scope.md section 5). Each is a piece of state that the step carries along. -/

namespace Sys2Proof.Machine

open Sys2Proof.Claims

variable {s : State}

/-! ### Earlier output -/

/-- The state with another OUT. -/
def State.withOut (s : State) (o : List Byte) : State := { s with out := o }

theorem firstFault_withOut (s : State) (o : List Byte) : firstFault (s.withOut o) = firstFault s := rfl

/-- Completion appends the same values to any OUT and reads none of it. -/
theorem completed_withOut (i : Instr) (s : State) (o : List Byte) :
    ∃ new, (completed i s).out = s.out ++ new ∧ completed i (s.withOut o) = (completed i s).withOut (o ++ new) := by
  cases i with
  | prn ra => exact ⟨_, rfl, rfl⟩
  | jeq ra | jne ra =>
    refine ⟨[], ?_⟩
    rw [List.append_nil, List.append_nil]
    cases hf : s.fl.getLsbD 0 <;> simp only [completed, State.flagEqual, State.withOut, hf] <;> exact ⟨rfl, rfl⟩
  | _ => exact ⟨[], (List.append_nil _).symm, by rw [List.append_nil]; rfl⟩

theorem Completes.withOut {i : Instr} (h : Completes i s) (o : List Byte) : Completes i (s.withOut o) :=
  ⟨h.fetched, h.below, h.operands, h.stack⟩

/-! ### FL bits 7 to 1 (R28) -/

/-- FL with the same bit 0: completion writes FL (CMP) or carries it along. -/
theorem completed_setFl {f : Byte} (h : f.getLsbD 0 = s.fl.getLsbD 0) (i : Instr) :
    completed i (s.setFl f) = completed i s ∨ completed i (s.setFl f) = (completed i s).setFl f := by
  cases i with
  | cmp ra rb => exact .inl rfl
  | jeq ra | jne ra =>
    right
    have hf : (s.setFl f).flagEqual = s.flagEqual := h
    simp only [completed, hf]
    split <;> rfl
  | _ => exact .inr rfl

theorem answer_setFl {f : Byte} (h : f.getLsbD 0 = s.fl.getLsbD 0) (i : Instr) :
    answer i (s.setFl f) = answer i s ∨ answer i (s.setFl f) = (answer i s).setFl f := by
  have hs : stackFaultOf i (s.setFl f) = stackFaultOf i s := rfl
  rcases answer_cases i s with ⟨k, b, hb, ha⟩ | ⟨r, hb, hr, ha⟩ | ⟨hb, hn, ha⟩
  · rw [ha, answer_bad hb]
    exact .inr rfl
  · rw [ha, answer, hb, hs, hr]
    exact .inr rfl
  · rw [ha, answer_good hb (hs.trans hn)]
    exact completed_setFl h i

/-! ### The parameter ALU_DECODE_EXT (R12) -/

/-- The state with ALU_DECODE_EXT at another value. -/
def State.withExt (e : Bool) (s : State) : State := { s with params := { s.params with aluDecodeExt := e } }

/-- A byte that is none of the extension's values decodes alike in both configurations. -/
theorem Op.ofByte_of_not_ext {b : Byte} (h : b ∉ extValues) (e e' : Bool) : Op.ofByte e b = Op.ofByte e' b := by
  refine List.find?_congr fun o ho => ?_
  cases hx : o.isExt with
  | false => simp
  | true =>
    have hne : o.value ≠ b := by
      rintro rfl
      rw [extValues_eq_map] at h
      exact h (List.mem_map_of_mem (List.mem_filter.2 ⟨ho, hx⟩))
    rw [beq_false_of_ne hne, Bool.false_and, Bool.false_and]

theorem fetch_withExt (h : s.pc.toNat < 256 → cellByte s s.pc.toNat ∉ extValues) (e : Bool) :
    fetch (s.withExt e) = fetch s := by
  rcases Nat.lt_or_ge s.pc.toNat 256 with hp | hp
  · have hb : fetchBytes (s.withExt e) = fetchBytes s := rfl
    rw [fetch, fetch, hb, fetchBytes_on hp, decode, decode, Op.ofByte_of_not_ext (h hp)]
  · rw [fetch_off hp, fetch_off (s := s.withExt e) hp]

theorem completed_withExt (i : Instr) (e : Bool) (s : State) :
    completed i (s.withExt e) = (completed i s).withExt e := by
  cases i with
  | jeq ra | jne ra =>
    have hf : (s.withExt e).flagEqual = s.flagEqual := rfl
    simp only [completed, hf]
    split <;> rfl
  | _ => rfl

/-- No meaning reads the parameter: what decodes, runs alike (log entry 18). -/
theorem exec_withExt (i : Instr) (e : Bool) (s : State) :
    exec i (s.withExt e) = mapNext (State.withExt e) (exec i s) := by
  have hs : stackFaultOf i (s.withExt e) = stackFaultOf i s := rfl
  rw [exec_eq, exec_eq]
  refine congrArg Host.Outcome.next ?_
  rcases answer_cases i s with ⟨k, b, hb, ha⟩ | ⟨r, hb, hr, ha⟩ | ⟨hb, hn, ha⟩
  · rw [ha, answer_bad hb]
    rfl
  · rw [ha, answer, hb, hs, hr]
    rfl
  · rw [ha, answer_good hb (hs.trans hn)]
    exact completed_withExt i e s

theorem step_withExt (h : s.pc.toNat < 256 → cellByte s s.pc.toNat ∉ extValues) (e : Bool) :
    step (s.withExt e) = mapNext (State.withExt e) (step s) := by
  have hn : notEnabled (s.withExt e) = notEnabled s := rfl
  rw [step, step, hn, fetch_withExt h e]
  cases notEnabled s with
  | some f => rfl
  | none =>
    cases fetch s with
    | instr i => exact exec_withExt i e s
    | invalidOpcode b => rfl
    | missing k => rfl

end Sys2Proof.Machine

namespace Sys2Proof.Claims

open Sys2Proof.Machine

/-- Settles O37: the first fault reads no output, and completion appends to it. -/
theorem earlierOutputNeverMatters : Obligations.EarlierOutputNeverMatters := by
  intro s t o h
  obtain ⟨he, ⟨f, hf, rfl⟩ | ⟨i, hi, rfl⟩⟩ := step_next_firstFault h
  · refine ⟨[], (List.append_nil _).symm, ?_⟩
    rw [List.append_nil]
    exact step_firstFault (s := s.withOut o) he hf
  · obtain ⟨new, hout, hnew⟩ := completed_withOut i s o
    exact ⟨new, hout, ((hi.withOut o).step he).trans (congrArg _ hnew)⟩

/-- Settles O33: the answer carries the other FL along, or (CMP) does not depend on it. -/
theorem onlyTheEqualFlagIsRead : Obligations.OnlyTheEqualFlagIsRead := by
  intro i s f hf
  refine ⟨_, _, exec_eq i s, exec_eq i (s.setFl f), ?_⟩
  rcases answer_setFl hf i with h | h <;> rw [h]
  · exact ⟨rfl, .inl rfl⟩
  · exact ⟨rfl, .inr rfl⟩

/-- Settles O48: the same instruction is fetched (`fetch_withExt`), and its meaning does not read the parameter. -/
theorem extensionChangesOnlyItsFiveOpcodes : Obligations.ExtensionChangesOnlyItsFiveOpcodes :=
  fun _ e h => step_withExt h e

end Sys2Proof.Claims
end

section
/-! PROOFS. 40_execution_cycle.md sections 2 and 3: the step driven by the decoder's control word is the step (R97 to R99). -/

namespace Sys2Proof.Machine

variable {s : State}

/-! ### The operand bytes (R93) -/

/-- The cells from pc + k upward, `n` of them. -/
def operandCells (s : State) (k n : Nat) : List Byte := (List.range' k n).map fun j => cellByte s (s.pc.toNat + j)

theorem operandCells_succ (s : State) (k n : Nat) :
    operandCells s k (n + 1) = cellByte s (s.pc.toNat + k) :: operandCells s (k + 1) n := by
  rw [operandCells, List.range'_succ, List.map_cons]
  rfl

/-- An operand byte below 256 is the cell's. -/
theorem readAddr_operand {k : Nat} (h : s.pc.toNat + k < 256) :
    s.readAddr (s.pc + BitVec.ofNat 9 k) = some (cellByte s (s.pc.toNat + k)) := by
  have ha : (s.pc + BitVec.ofNat 9 k).toNat = s.pc.toNat + k := addr_add_toNat (by omega)
  rw [State.readAddr_below (by omega), ha]

theorem readOperands_below {k n : Nat} (h : s.pc.toNat + k + n ≤ 256) : readOperands s k n = .ok (operandCells s k n) := by
  induction n generalizing k with
  | zero => rfl
  | succ n ih =>
    rw [readOperands, readAddr_operand (by omega), operandCells_succ]
    simp only [ih (k := k + 1) (by omega)]

/-- Of operand bytes that reach past the top of memory, the one at 256 is reported. -/
theorem readOperands_beyond {k n : Nat} (hk : s.pc.toNat + k ≤ 256) (h : 256 < s.pc.toNat + k + n) :
    readOperands s k n = .error (256 - s.pc.toNat) := by
  induction n generalizing k with
  | zero => omega
  | succ n ih =>
    rcases Nat.lt_or_eq_of_le hk with hlt | heq
    · rw [readOperands, readAddr_operand hlt]
      simp only [ih (k := k + 1) (by omega) (by omega)]
    · have ha : (s.pc + BitVec.ofNat 9 k).toNat = s.pc.toNat + k := addr_add_toNat (by omega)
      rw [readOperands, State.readAddr_above (by omega), show 256 - s.pc.toNat = k by omega]

theorem controlWord_fetched (o : Op) : (controlWord o).fetched = o.format.fetched := by cases o <;> rfl

/-! ### The register check (R94) -/

theorem firstBad_operandCells (o : Op) (s : State) :
    firstBad (controlWord o).regchk (operandCells s 1 o.format.fetched) = (instrAt o s).badOperand := by
  cases o <;> rfl

/-! ### Execute and NextPc (R97, R98) -/

/-- The state a control word's Execute and NextPc leave where they raise no fault. -/
def Control.result (c : Control) (a : RegIx) (b2 : Byte) (s : State) : State :=
  c.finish a b2 s (c.popSp (c.writeBack a b2 s (c.store a s)))

theorem Control.execute_eq_result {c : Control} (ha : c.cls = .alu → c.aluDefined = true)
    (hd : c.sp = .dec → s.sp.toNat ≠ 0) (hi : c.sp = .inc → s.sp.toNat < 0xF4) (ra b2 : Byte) :
    c.execute ra b2 s = .next (c.result (pick ra) b2 s) := by
  have h1 : ¬ (c.cls = .alu ∧ ¬ c.aluDefined = true) := fun h => h.2 (ha h.1)
  have h2 : ¬ (c.sp = .dec ∧ s.stackFull = true) := fun h => hd h.1 (s.stackFull_iff.1 h.2)
  have h3 : ¬ (c.sp = .inc ∧ s.stackEmpty = true) := fun h => by
    have := hi h.1
    have := s.stackEmpty_iff.1 h.2
    omega
  rw [Control.execute, if_neg h1, if_neg h2, if_neg h3]
  rfl

/-- Every row of the class ALU has an operation (R126). -/
theorem controlWord_aluDefined (o : Op) : (controlWord o).cls = .alu → (controlWord o).aluDefined = true := by
  cases o <;> decide

/-- A row whose instruction meets no stack fault moves SP within its bounds. -/
theorem controlWord_sp_of_stackFaultOf {o : Op} (h : stackFaultOf (instrAt o s) s = none) :
    ((controlWord o).sp = .dec → s.sp.toNat ≠ 0) ∧ ((controlWord o).sp = .inc → s.sp.toNat < 0xF4) := by
  cases o with
  | push => exact ⟨fun _ => by simpa [instrAt, stackFaultOf] using h, nofun⟩
  | pop => exact ⟨nofun, fun _ => by simpa [instrAt, stackFaultOf] using h⟩
  | _ => exact ⟨nofun, nofun⟩

/-- The control word's stack checks are the instruction's. -/
theorem execute_stackFault {o : Op} {f : FaultRecord} (h : stackFaultOf (instrAt o s) s = some f) (ra b2 : Byte) :
    (controlWord o).execute ra b2 s = .next (s.takeFault f.cause f.faddr f.fval) := by
  cases o with
  | push =>
    obtain ⟨h0, rfl⟩ : s.sp.toNat = 0 ∧ _ = f := by simpa [instrAt, stackFaultOf] using h
    exact if_pos ⟨rfl, s.stackFull_iff.2 h0⟩
  | pop =>
    obtain ⟨h0, rfl⟩ : 0xF4 ≤ s.sp.toNat ∧ _ = f := by simpa [instrAt, stackFaultOf] using h
    exact if_pos ⟨rfl, s.stackEmpty_iff.2 h0⟩
  | _ => cases h

/-- On the operand bytes it fetches, a row's control word leaves what its instruction completes with. -/
theorem result_eq_completed (o : Op) (s : State) :
    (controlWord o).result (pick ((operandCells s 1 o.format.fetched).getD 0 0#8))
      ((operandCells s 1 o.format.fetched).getD 1 0#8) s = completed (instrAt o s) s := by
  cases o with
  | push =>
    have hsp : (s.setSp s.pushAddr).sp = s.pushAddr := s.reg_setSp spIndex _
    exact congrArg (fun c => ((s.setSp s.pushAddr).storeByte c
      ((s.setSp s.pushAddr).reg (pick (cellByte s (s.pc.toNat + 1))))).advance 2) hsp
  | jeq | jne =>
    simp only [completed, instrAt]
    cases hf : s.flagEqual <;> simp only [Control.result, Control.finish, Control.nextPc, controlWord, hf] <;> rfl
  | _ => rfl

theorem execute_eq_exec {o : Op} (hb : (instrAt o s).badOperand = none) :
    (controlWord o).execute ((operandCells s 1 o.format.fetched).getD 0 0#8)
      ((operandCells s 1 o.format.fetched).getD 1 0#8) s = exec (instrAt o s) s := by
  rw [exec_eq]
  cases hs : stackFaultOf (instrAt o s) s with
  | some f => rw [execute_stackFault hs, answer, hb, hs]
  | none =>
    obtain ⟨hd, hi⟩ := controlWord_sp_of_stackFaultOf hs
    rw [Control.execute_eq_result (controlWord_aluDefined o) hd hi, result_eq_completed, answer_good hb hs]

/-! ### The whole step (R99) -/

theorem stepByControl_off (h : Enabled s) (hp : 256 ≤ s.pc.toNat) : stepByControl s = step s := by
  rw [step_off h hp, stepByControl, (notEnabled_eq_none_iff s).2 h, State.readAddr_above hp]
  rfl

theorem stepByControl_invalid (h : Enabled s) (hp : s.pc.toNat < 256) (ho : rowAt s = none) : stepByControl s = step s := by
  have hc : controlOf s.params.aluDecodeExt (cellByte s s.pc.toNat) = none := congrArg (Option.map controlWord) ho
  rw [step_invalid h hp ho]
  simp only [stepByControl, (notEnabled_eq_none_iff s).2 h, State.readAddr_below hp, hc]
  rfl

theorem stepByControl_row {o : Op} (h : Enabled s) (hp : s.pc.toNat < 256) (ho : rowAt s = some o) :
    stepByControl s = step s := by
  have hc : controlOf s.params.aluDecodeExt (cellByte s s.pc.toNat) = some (controlWord o) :=
    congrArg (Option.map controlWord) ho
  simp only [stepByControl, (notEnabled_eq_none_iff s).2 h, State.readAddr_below hp, hc, controlWord_fetched]
  rcases Nat.lt_or_ge (s.pc.toNat + o.format.fetched) 256 with hF | hF
  · rw [step_row h ho hF]
    simp only [readOperands_below (k := 1) (n := o.format.fetched) (s := s) (by omega), firstBad_operandCells]
    cases hb : (instrAt o s).badOperand with
    | some p => exact congrArg Host.Outcome.next (answer_bad hb).symm
    | none => rw [← exec_eq]; exact execute_eq_exec hb
  · have ha : s.pc + BitVec.ofNat 9 (256 - s.pc.toNat) = 256#9 :=
      BitVec.eq_of_toNat_eq ((addr_add_toNat (by omega)).trans (Nat.add_sub_of_le (by omega)))
    rw [step_short h hp ho hF]
    simp only [readOperands_beyond (k := 1) (n := o.format.fetched) (s := s) (by omega) (by omega), ha]
    rfl

end Sys2Proof.Machine

namespace Sys2Proof.Claims

open Sys2Proof.Machine

/-- Settles O49: the two descriptions agree off memory, on an invalid opcode, and on every row of the table. -/
theorem controlWordStepIsTheStep : Obligations.ControlWordStepIsTheStep := by
  intro s
  cases hn : notEnabled s with
  | some f => rw [stepByControl, step_notEnabled hn, hn]
  | none =>
    have he := (notEnabled_eq_none_iff s).1 hn
    rcases Nat.lt_or_ge s.pc.toNat 256 with hp | hp
    · cases ho : rowAt s with
      | none => exact stepByControl_invalid he hp ho
      | some o => exact stepByControl_row he hp ho
    · exact stepByControl_off he hp

end Sys2Proof.Claims
end
